-- ==== Sys2Proof/Word.lean ====
section
/-! DEFINITION. The word types of the unit's ports and operands (00_scope.md rules R7 and R8).
Bit 0 is the least significant bit of every word. -/

namespace Sys2Proof

/-- The opcode field `req_op`, OP_W = 4 bits (R7). -/
abbrev OpWord := BitVec 4

/-- An operand bus or the result bus, DATA_W = 64 bits (R7). -/
abbrev Word64 := BitVec 64

/-- A code container, CODE_W = 16 bits (R7): it holds a code or a comparable value. -/
abbrev Code := BitVec 16

end Sys2Proof
end

