-- ==== Sys2Proof/Config.lean ====
section
/-! DEFINITION. The implementation parameters of the unit (00_scope.md rule R6, 70_reset_and_hazards.md
rule R167). ARITH is a type here; the value a unit has is a field of the state, so that every
statement about a state speaks of both values, as rule R6 asks ("A model takes ARITH as an
argument and must not mix the two"). DEPTH and LATENCY are fields of the state too. -/

namespace Sys2Proof

/-- ARITH: how the real-number formulas are evaluated (R6, R13). -/
inductive Arith where
  /-- Exact rational arithmetic. -/
  | exact
  /-- One correctly rounded IEEE 754 binary64 operation for each operation of a formula. -/
  | binary64
deriving DecidableEq, Repr

namespace Config

/-- The spec's default value of ARITH (R6: "This spec's default is `ARITH = EXACT`"). -/
def defaultArith : Arith := .exact

end Config

end Sys2Proof
end

