-- ==== Sys2Proof/Machine/Binary64.lean ====
section
/-! DEFINITION. Binary64 words and rounding to binary64 (00_scope.md rules R10, R11 and R12). The
value of a finite word is an exact rational, as in the spec. Infinities are seen by `isInf` alone. -/

namespace Sys2Proof.Machine

/-- `b^k` as an exact rational, for an integer k: a reciprocal power when k is negative (R27). -/
def intPow (b : Nat) (k : Int) : ℚ :=
  if 0 ≤ k then ((b ^ k.toNat : Nat) : ℚ) else 1 / ((b ^ (-k).toNat : Nat) : ℚ)

/-- The sign `s = w[63]` (R10). -/
def f64Sign (w : Word64) : Bool := w.getLsbD 63

/-- The biased exponent `E = w[62:52]` (R10). -/
def f64Exp (w : Word64) : Nat := (w.extractLsb' 52 11).toNat

/-- The fraction `T = w[51:0]` (R10). -/
def f64Frac (w : Word64) : Nat := (w.extractLsb' 0 52).toNat

/-- The NaN class (R10). -/
def isNaN (w : Word64) : Bool := f64Exp w == 0x7FF && f64Frac w != 0

/-- The infinities (R10). -/
def isInf (w : Word64) : Bool := f64Exp w == 0x7FF && f64Frac w == 0

/-- `|val(w)|` of a finite word (R10). Under either ARITH value this is the `|w|` of 41_scalar_codec.md
rule R90. The answer for a word that is not finite means nothing, and no meaning uses it. -/
def absVal (w : Word64) : ℚ :=
  if f64Exp w = 0 then ((f64Frac w : ℚ) / 2 ^ 52) * intPow 2 (-1022)
  else (1 + (f64Frac w : ℚ) / 2 ^ 52) * intPow 2 ((f64Exp w : Int) - 1023)

/-- `val(w)`, the exact value of a finite word; both zeros have value 0 (R10). -/
def val (w : Word64) : ℚ := if f64Sign w then -absVal w else absVal w

/-- `neg(w)`: not a NaN, and below zero or minus infinity. `neg(-0.0)` is false (R10, D13). -/
def neg (w : Word64) : Bool :=
  !isNaN w && (if isInf w then f64Sign w else decide (val w < 0))

/-- The exponent of the binade of a positive rational: `2^e ≤ q < 2^(e+1)`. -/
def binade (q : ℚ) : Int :=
  let e := (Nat.log2 q.num.natAbs : Int) - (Nat.log2 q.den : Int)
  if intPow 2 e ≤ q then e else e - 1

/-- The integer nearest to a rational, a tie to the even one. -/
def roundEven (q : ℚ) : Int :=
  let f := ⌊q⌋
  if q - f < 1 / 2 then f
  else if 1 / 2 < q - f then f + 1
  else if f % 2 = 0 then f else f + 1

/-- The exponent of the unit in the last place of the binary64 values around a magnitude: 52 below
its binade, and no lower than the subnormals' (R10). -/
def ulpExp (q : ℚ) : Int := max (binade q - 52) (-1074)

/-- Rounding to binary64, roundTiesToEven with gradual underflow (R11, R13), on values. Overflow to
infinity has no rational value and is left out: it cannot arise in the formulas (R11; log entry 7,
DEDUCED), and a literal past the range is `realLiteral`'s matter (log entry 14). -/
def rne64 (q : ℚ) : ℚ :=
  if q = 0 then 0 else roundEven (q / intPow 2 (ulpExp |q|)) * intPow 2 (ulpExp |q|)

/-- `b64(q, s)`: the binary64 word with sign bit s whose value is the representable `q ≥ 0` (R10). -/
def b64 (q : ℚ) (s : Bool) : Word64 :=
  let e := binade q
  if q = 0 then BitVec.ofBool s ++ 0#63
  else if e < -1022 then BitVec.ofBool s ++ 0#11 ++ BitVec.ofInt 52 ⌊q * intPow 2 1074⌋
  else BitVec.ofBool s ++ BitVec.ofInt 11 (e + 1023) ++ BitVec.ofInt 52 ⌊(q / intPow 2 e - 1) * 2 ^ 52⌋

/-- `rha(q)`: the nearest integer, ties away from zero, of the exact argument (R12). -/
def rha (q : ℚ) : Int := if 0 ≤ q then ⌊q + 1 / 2⌋ else -⌊-q + 1 / 2⌋

end Sys2Proof.Machine
end

