-- ==== Sys2Proof/Machine/Arith.lean ====
section
/-! DEFINITION. The operations `⊕ ⊖ ⊗ ⊘` of the formulas (00_scope.md rule R13): exact under
`ARITH = EXACT`, the exact result rounded once under `ARITH = BINARY64`. Magnitude, negation and
comparison are exact in both. A binary64 operand is represented by its value; the only values the
formulas meet are finite, and no formula tells a zero's sign. -/

namespace Sys2Proof

open Sys2Proof.Machine

/-- What an operation does to its exact result (R13). -/
def Arith.round : Arith → ℚ → ℚ
  | .exact, q => q
  | .binary64, q => rne64 q

/-- `x ⊕ y` (R13). -/
def Arith.add (ar : Arith) (x y : ℚ) : ℚ := ar.round (x + y)

/-- `x ⊖ y` (R13). -/
def Arith.sub (ar : Arith) (x y : ℚ) : ℚ := ar.round (x - y)

/-- `x ⊗ y` (R13). -/
def Arith.mul (ar : Arith) (x y : ℚ) : ℚ := ar.round (x * y)

/-- `x ⊘ y` (R13). -/
def Arith.div (ar : Arith) (x y : ℚ) : ℚ := ar.round (x / y)

/-- The constant `1e-14` of the snap: under BINARY64 the binary64 value nearest to 10^-14 (R100). -/
def Arith.snapBound (ar : Arith) : ℚ := ar.round (1 / 10 ^ 14)

end Sys2Proof
end

