-- ==== Sys2Proof/Machine/Operands.lean ====
section
/-! DEFINITION. The operand forms of the command formats and the placement of results on the 64-bit
buses (00_scope.md rule R9, 30_encoding.md rules R55, R56 and R59). -/

namespace Sys2Proof.Machine

/-- Form C, and each half of CC: the container in the low 16 bits of a bus; bits [63:16] are
ignored (R55, 20_memory.md R43). -/
def containerOf (bus : Word64) : Code := bus.extractLsb' 0 16

/-- `sint64(w)`: the two's-complement value of a 64-bit word (R9); the delta of form CD (R55). -/
def sint64 (bus : Word64) : Int := bus.toInt

/-- `zext_64(v)` of a 16-bit container (R9): the placement of a code or comparable result (R59). -/
def zext64 (v : Code) : Word64 := v.setWidth 64

/-- `sext_64(v)` (R9): the placement of a delta result (R59). -/
def sext64 (v : Int) : Word64 := BitVec.ofInt 64 v

/-- Field TB of the configuration word, bits [7:0] (R56). -/
def cfgTb (a : Word64) : Nat := (a.extractLsb' 0 8).toNat

/-- Field BASE of the configuration word, bits [15:8] (R56). -/
def cfgBase (a : Word64) : Nat := (a.extractLsb' 8 8).toNat

/-- Field XB of the configuration word, bits [23:16] (R56). -/
def cfgXb (a : Word64) : Nat := (a.extractLsb' 16 8).toNat

/-- Field MINE of the configuration word, bits [31:24], two's complement (R56, R70). -/
def cfgMine (a : Word64) : Int := (a.extractLsb' 24 8).toInt

/-- Field SG of the configuration word, bit [32] (R56). -/
def cfgSg (a : Word64) : Bool := a.getLsbD 32

/-- The configuration word with the given fields and zeros in bits [63:33] (R56, R60, R63). -/
def cfgWord (tb base xb : Nat) (mine : Int) (sg : Bool) : Word64 :=
  0#31 ++ BitVec.ofBool sg ++ BitVec.ofInt 8 mine ++ BitVec.ofNat 8 xb ++ BitVec.ofNat 8 base
    ++ BitVec.ofNat 8 tb

end Sys2Proof.Machine
end

