-- ==== Sys2Proof/Syntax.lean ====
section
/-! DEFINITION. The commands of the unit, one constructor for each row of spec/opcode_table.json
(30_encoding.md rule R53). A constructor carries exactly the operands its format reads (R55); the
operand bits a format ignores are not part of the command's meaning (R60). -/

namespace Sys2Proof

/-- A command, with the operands its format reads. -/
inductive Instr where
  /-- Opcode 0x0, reserved (R54, R141). -/
  | reserved0
  /-- CFG, op 0x1, format W: the five fields of the configuration word (R56, R70). -/
  | cfg (tb base xb : Nat) (mine : Int) (sg : Bool)
  /-- RDCFG, op 0x2, format N (R75). -/
  | rdcfg
  /-- MAXV, op 0x3, format N (R77). -/
  | maxv
  /-- MINV, op 0x4, format N (R78). -/
  | minv
  /-- ENC, op 0x5, format F: a binary64 word (R98). -/
  | enc (w : Word64)
  /-- DEC, op 0x6, format C: a code container (R105). -/
  | dec (x : Code)
  /-- ABS, op 0x7, format C: a code container (R124). -/
  | abs (x : Code)
  /-- TOCMP, op 0x8, format C: a code container (R122). -/
  | tocmp (x : Code)
  /-- FRCMP, op 0x9, format C: a comparable container (R123). -/
  | frcmp (u : Code)
  /-- DENC, op 0xA, format CC: two code containers (R130). -/
  | denc (last x : Code)
  /-- DDEC, op 0xB, format CD: a code container and a signed delta (R131). -/
  | ddec (last : Code) (delta : Int)
  /-- Opcode 0xC, reserved (R54, R141). -/
  | reservedC
  /-- Opcode 0xD, reserved (R54, R141). -/
  | reservedD
  /-- Opcode 0xE, reserved (R54, R141). -/
  | reservedE
  /-- Opcode 0xF, reserved (R54, R141). -/
  | reservedF
deriving DecidableEq, Repr

/-- The opcode that selects the command (R53). -/
def Instr.opcode : Instr → OpWord
  | .reserved0 => 0x0#4
  | .cfg _ _ _ _ _ => 0x1#4
  | .rdcfg => 0x2#4
  | .maxv => 0x3#4
  | .minv => 0x4#4
  | .enc _ => 0x5#4
  | .dec _ => 0x6#4
  | .abs _ => 0x7#4
  | .tocmp _ => 0x8#4
  | .frcmp _ => 0x9#4
  | .denc _ _ => 0xA#4
  | .ddec _ _ => 0xB#4
  | .reservedC => 0xC#4
  | .reservedD => 0xD#4
  | .reservedE => 0xE#4
  | .reservedF => 0xF#4

/-- CFG is the one command that writes state (R25). -/
def Instr.isCfg : Instr → Bool
  | .cfg _ _ _ _ _ => true
  | .reserved0 | .rdcfg | .maxv | .minv | .enc _ | .dec _ | .abs _ | .tocmp _ | .frcmp _
  | .denc _ _ | .ddec _ _ | .reservedC | .reservedD | .reservedE | .reservedF => false

/-- The nine commands that need a descriptor (60_exceptions.md rule R142). -/
def Instr.needsDescriptor : Instr → Bool
  | .maxv | .minv | .enc _ | .dec _ | .abs _ | .tocmp _ | .frcmp _ | .denc _ _ | .ddec _ _ => true
  | .reserved0 | .cfg _ _ _ _ _ | .rdcfg | .reservedC | .reservedD | .reservedE | .reservedF =>
    false

end Sys2Proof
end

