-- ==== Sys2Proof/WellFormed.lean ====
section
/-! DEFINITION. Which terms of `Instr` an encoding can express: the ranges of the integer operands
(30_encoding.md rules R55 and R56). Operands held as words have no check: every value of the word
is encodable. -/

namespace Sys2Proof

/-- The operand is an unsigned 8-bit field (R56: "unsigned 0..255"). -/
def fitsByte (n : Nat) : Bool := decide (n < 256)

/-- The operand is an 8-bit two's-complement field (R56: "two's complement -128..127"). -/
def fitsSignedByte (k : Int) : Bool := decide (-128 ≤ k) && decide (k ≤ 127)

/-- The operand is a 64-bit two's-complement word (R55, format CD). -/
def fitsSigned64 (k : Int) : Bool :=
  decide (-9223372036854775808 ≤ k) && decide (k ≤ 9223372036854775807)

/-- An instruction that some command triple encodes. -/
def Instr.wellFormed : Instr → Bool
  | .cfg tb base xb mine _ => fitsByte tb && fitsByte base && fitsByte xb && fitsSignedByte mine
  | .ddec _ delta => fitsSigned64 delta
  | .reserved0 | .rdcfg | .maxv | .minv | .enc _ | .dec _ | .abs _ | .tocmp _ | .frcmp _
  | .denc _ _ | .reservedC | .reservedD | .reservedE | .reservedF => true

end Sys2Proof
end

