-- ==== Sys2Proof/Decode.lean ====
section
/-! DEFINITION. The decoder and the encoder of commands (30_encoding.md rules R51, R53, R55, R60,
R61 and R63). The opcode alone selects the command, every opcode has a row in the table, and so
decoding is total and rejects nothing: the reserved opcodes decode to commands of their own, which
the unit answers with ILLEGAL_OP. -/

namespace Sys2Proof

open Sys2Proof.Machine

/-- A command as it stands on the request port: the triple `(op, a, b)` (R51). -/
structure Command where
  /-- `req_op`. -/
  op : OpWord
  /-- `req_a`. -/
  a : Word64
  /-- `req_b`. -/
  b : Word64
deriving DecidableEq, Repr

/-- The command a triple stands for: the opcode map (R53) and the operand forms (R55). -/
def decode (c : Command) : Instr :=
  match c.op.toNat with
  | 0x0 => .reserved0
  | 0x1 => .cfg (cfgTb c.a) (cfgBase c.a) (cfgXb c.a) (cfgMine c.a) (cfgSg c.a)
  | 0x2 => .rdcfg
  | 0x3 => .maxv
  | 0x4 => .minv
  | 0x5 => .enc c.a
  | 0x6 => .dec (containerOf c.a)
  | 0x7 => .abs (containerOf c.a)
  | 0x8 => .tocmp (containerOf c.a)
  | 0x9 => .frcmp (containerOf c.a)
  | 0xA => .denc (containerOf c.a) (containerOf c.b)
  | 0xB => .ddec (containerOf c.a) (sint64 c.b)
  | 0xC => .reservedC
  | 0xD => .reservedD
  | 0xE => .reservedE
  | _ => .reservedF

/-- Operand A as the assembler lays it out; an omitted operand is 0 (R63). -/
def encodeA : Instr → Word64
  | .cfg tb base xb mine sg => cfgWord tb base xb mine sg
  | .enc w => w
  | .dec x => zext64 x
  | .abs x => zext64 x
  | .tocmp x => zext64 x
  | .frcmp u => zext64 u
  | .denc last _ => zext64 last
  | .ddec last _ => zext64 last
  | .reserved0 | .rdcfg | .maxv | .minv | .reservedC | .reservedD | .reservedE | .reservedF => 0#64

/-- Operand B as the assembler lays it out; an omitted operand is 0 (R63). -/
def encodeB : Instr → Word64
  | .denc _ x => zext64 x
  | .ddec _ delta => sext64 delta
  | .cfg _ _ _ _ _ | .enc _ | .dec _ | .abs _ | .tocmp _ | .frcmp _ | .reserved0 | .rdcfg | .maxv
  | .minv | .reservedC | .reservedD | .reservedE | .reservedF => 0#64

/-- The command triple of an instruction (R53, R63). -/
def encode (i : Instr) : Command := ⟨i.opcode, encodeA i, encodeB i⟩

/-- A command read from one number, bit 0 its least significant bit: `op` in bits [3:0], A in bits
[67:4], B in bits [131:68]. DESIGN CHOICE (log entry 4), safe: the spec gives the command no
serialised form; the triple of R51 is laid out in its own order, lowest bits first. -/
def Command.ofNat (w : Nat) : Command :=
  ⟨BitVec.ofNat 4 w, BitVec.ofNat 64 (w >>> 4), BitVec.ofNat 64 (w >>> 68)⟩

/-- The number of a command triple, as `Command.ofNat` reads it. -/
def Command.toNat (c : Command) : Nat := c.op.toNat + c.a.toNat <<< 4 + c.b.toNat <<< 68

/-- The instruction the decoder reads from the `nbits` low bits of `w`, every higher bit 0. -/
def decodeTableWord (nbits w : Nat) : Option Instr :=
  some (decode (Command.ofNat (w % 2 ^ nbits)))

end Sys2Proof
end

