-- ==== Sys2Proof/Machine/State.lean ====
section
/-! DEFINITION. The state of the machine (10_state.md rules R20 and R21): the unit's architectural
state, the commands in flight at its two ports (70_reset_and_hazards.md rules R162, R165 and R167),
the host's side of the ports (R3, R50), and the unit's parameters (R6, R167). Plain data. -/

namespace Sys2Proof.Machine

/-- The Format Descriptor's register set (R20). -/
structure Desc where
  /-- DESC.TB, 8 bits unsigned: total bits N of a code. -/
  tb : BitVec 8
  /-- DESC.BASE, 8 bits unsigned: exponent base b. -/
  base : BitVec 8
  /-- DESC.XB, 8 bits unsigned: exponent field width X. -/
  xb : BitVec 8
  /-- DESC.MINE, 8 bits two's complement: exponent of scale entry 0. -/
  mine : BitVec 8
  /-- DESC.SG, 1 bit: true for a signed format. -/
  sg : Bool
deriving DecidableEq, Repr

/-- Every DESC field 0: what reset (R21) and a failed CFG (40_descriptor.md R73) leave. -/
def Desc.zero : Desc := ⟨0#8, 0#8, 0#8, 0#8, false⟩

/-- The architectural state: exactly the fields of R20. -/
structure Arch where
  /-- The Format Descriptor. -/
  desc : Desc
  /-- CFG_VALID, 1 bit: DESC holds a descriptor that passed validation (R23). -/
  cfgValid : Bool
  /-- LAST_CAUSE, 3 bits: outcome of the most recent CFG (R24). -/
  lastCause : BitVec 3
deriving DecidableEq, Repr

/-- The reset values of R21. -/
def Arch.reset : Arch := ⟨Desc.zero, false, 0#3⟩

/-- The status of a response (60_exceptions.md rule R140). -/
inductive Status where
  /-- Code 0. -/
  | ok
  /-- Code 1, CFG only (R143). -/
  | cfgError
  /-- Code 2: a command that needs a descriptor while CFG_VALID = 0 (R142). -/
  | notConfigured
  /-- Code 3: a reserved opcode (R141). -/
  | illegalOp
deriving DecidableEq, Repr

/-- A response: the pair `(rsp_status, rsp_data)` (30_encoding.md rule R52). -/
structure Response where
  /-- `rsp_status`. -/
  status : Status
  /-- `rsp_data`. -/
  data : Word64
deriving DecidableEq, Repr

/-- An accepted command whose response the host has not taken yet (R34, R162, R167). -/
structure Pending where
  /-- Its response. -/
  rsp : Response
  /-- How many further edges must pass before the response can be transferred (LATENCY, R167). -/
  wait : Nat
deriving DecidableEq, Repr

/-- The unit's input ports at one rising edge of `clk` (30_encoding.md rule R50). -/
structure EdgeIn where
  /-- `rst`. -/
  rst : Bool
  /-- `req_valid`. -/
  reqValid : Bool
  /-- `req_op`, `req_a` and `req_b`. -/
  req : Command
  /-- `rsp_ready`. -/
  rspReady : Bool
deriving DecidableEq, Repr

/-- An edge at which the host drives every input to 0. -/
def EdgeIn.idle : EdgeIn := ⟨false, false, ⟨0#4, 0#64, 0#64⟩, false⟩

/-- The machine: the unit, the commands in flight, and the host's side of the two ports. -/
structure State where
  /-- The architectural state of the unit (R20). -/
  arch : Arch
  /-- Accepted commands whose responses are not transferred yet, oldest first (R34, R165). -/
  outstanding : List Pending
  /-- The responses the host has taken since the last reset, oldest first (R52, R165). The model's
  own record of the host's side (log entry 3). -/
  delivered : List Response
  /-- What the host drives on the input ports at the coming edges, the next edge first (R50). Past
  the list's end the host is idle (log entry 2). -/
  inputs : List EdgeIn
  /-- LATENCY - 1 of the commands still to be accepted, in acceptance order; 0 past the list's end
  (R167; log entry 6). -/
  latencies : List Nat
  /-- The parameter ARITH (R6; log entry 5). No step changes it. -/
  arith : Arith
  /-- The parameter DEPTH less one, so that DEPTH ≥ 1 (R167; log entry 6). No step changes it. -/
  depthPred : Nat
deriving DecidableEq, Repr

/-- Why the machine would stop. The unit has no trap, no exception and no stuck state that loses
anything (60_exceptions.md rules R145 to R147, 93_implementation_defined.md I8): no reason exists,
and no step answers with a fault. -/
inductive Fault where
deriving DecidableEq, Repr

/-- Why the model would give an instruction no meaning. -/
inductive Refusal where
  /-- Raised by an arm of `exec` for an instruction without a meaning. No arm raises it: every
  instruction has its meaning. Safe: the model would stop where the hardware goes on. -/
  | notModelled (mnemonic : String)
deriving DecidableEq, Repr

/-- The machine right after reset (R21, R161, R162): every architectural field 0, nothing in flight,
nothing delivered, an idle host. ARITH has the spec's default (R6). DEPTH = 1 and LATENCY = 1 are
DESIGN CHOICE (log entry 6), unsafe for a claim that rests on them: the spec leaves both open. The time before the first reset is not
modelled (R161, log entry 10). -/
def State.reset : State :=
  { arch := Arch.reset, outstanding := [], delivered := [], inputs := [], latencies := [],
    arith := Config.defaultArith, depthPred := 0 }

end Sys2Proof.Machine
end

