-- ==== Sys2Proof/Machine/Derived.lean ====
section
/-! DEFINITION. The constants the spec derives from the descriptor (10_state.md rules R26 to R30), and
the magnitude function they rest on (41_scalar_codec.md rule R100). Each is recomputed from DESC,
as the spec lets a model do ("A model may hold such a constant or recompute it"). They mean
something only while CFG_VALID = 1, and only then does a meaning use them. Outside the ranges of R22,
which no run leaves, a subtraction stops at 0 and a division by 0 gives 0 (log entry 12). -/

namespace Sys2Proof.Machine

/-- `mantissa_bits` M = N - X - S (R26). -/
def mantissaBits (d : Desc) : Nat := d.tb.toNat - d.xb.toNat - d.sg.toNat

/-- `sign_mask`: bit N-1 of a signed format, 0 for an unsigned one (R26). -/
def signMask (d : Desc) : Code := if d.sg then 1#16 <<< (d.tb.toNat - 1) else 0#16

/-- `mantissa_mask` = 2^M - 1 (R26). -/
def mantissaMask (d : Desc) : Nat := 2 ^ mantissaBits d - 1

/-- `exponent_mask` = 2^X - 1, unshifted (R26). -/
def exponentMask (d : Desc) : Nat := 2 ^ d.xb.toNat - 1

/-- `code_mask` = 2^N - 1 (R26). -/
def codeMask (d : Desc) : Code := BitVec.ofNat 16 (2 ^ d.tb.toNat - 1)

/-- `top`, the maximum exponent index (R26). -/
def topIndex (d : Desc) : Nat := exponentMask d

/-- `step`, the mantissa scale (R26). -/
def stepScale (d : Desc) : Nat :=
  if d.base = 2#8 then 2 ^ mantissaBits d else 2 ^ (mantissaBits d - 1)

/-- An exponent index and a mantissa packed into a code without sign: `(i << M) | m` (R97). -/
def packFields (d : Desc) (i m : Nat) : Code :=
  (BitVec.ofNat 16 i <<< mantissaBits d) ||| BitVec.ofNat 16 m

/-- `max_code`, the saturated magnitude: both fields all ones (R26). -/
def maxCode (d : Desc) : Code := packFields d (topIndex d) (mantissaMask d)

/-- `max_cmp`, the largest comparable value (R26). -/
def maxCmp (d : Desc) : Int := (codeMask d).toNat

/-- `scale[i]` (R27): the exact power under EXACT and for base 2, its correctly rounded value for
base 3 under BINARY64. -/
def scale (ar : Arith) (d : Desc) (i : Nat) : ℚ :=
  match ar with
  | .exact => intPow d.base.toNat (d.mine.toInt + i)
  | .binary64 =>
    if d.base = 2#8 then intPow 2 (d.mine.toInt + i)
    else rne64 (intPow d.base.toNat (d.mine.toInt + i))

/-- `a = scale[0]` (R28). -/
def affineA (ar : Arith) (d : Desc) : ℚ := scale ar d 0

/-- `one_minus_a = 1 ⊖ a` (R28). -/
def oneMinusA (ar : Arith) (d : Desc) : ℚ := ar.sub 1 (affineA ar d)

/-- `c = 1 ⊘ one_minus_a` (R28). -/
def affineC (ar : Arith) (d : Desc) : ℚ := ar.div 1 (oneMinusA ar d)

/-- `boundary`, the rounding boundary, exact under both ARITH values (R29). -/
def boundary (d : Desc) : ℚ :=
  1 + ((d.base.toNat : ℚ) - 1) * (((2 : ℚ) ^ mantissaBits d - 1 / 2) / 2 ^ mantissaBits d)

/-- The snap to one: a value within `1e-14` of 1 becomes 1 (R100 step 5, R103). -/
def snapToOne (ar : Arith) (r : ℚ) : ℚ :=
  if |ar.sub r 1| < ar.snapBound then 1 else r

/-- `mag(e, m)`, the magnitude of exponent index e and mantissa m (R100). -/
def mag (ar : Arith) (d : Desc) (e m : Nat) : ℚ :=
  let sig := ar.add 1 (ar.div m (stepScale d))
  let inner := ar.mul sig (scale ar d e)
  snapToOne ar (ar.mul (ar.sub inner (affineA ar d)) (affineC ar d))

/-- `max_value`, the magnitude of `max_code` (R30). -/
def maxValue (ar : Arith) (d : Desc) : ℚ := mag ar d (topIndex d) (mantissaMask d)

/-- A magnitude as it leaves the unit: the correctly rounded value of an exact rational, or the
binary64 value the operations gave (R77, R101, R104). -/
def outputMagnitude (ar : Arith) (r : ℚ) : ℚ :=
  match ar with
  | .exact => rne64 r
  | .binary64 => r

end Sys2Proof.Machine
end

