-- ==== Sys2Proof/Machine/Flags.lean ====
section
/-! DEFINITION. What the unit computes about a command's outcome: the status codes (60_exceptions.md
rule R140), the validation checks and their causes (40_descriptor.md rule R71, R143), and the status
word (30_encoding.md rule R57). The unit has no condition codes (10_state.md rule R33). -/

namespace Sys2Proof.Machine

/-- The code on `rsp_status[1:0]` (R140). -/
def Status.code : Status → BitVec 2
  | .ok => 0#2
  | .cfgError => 1#2
  | .notConfigured => 2#2
  | .illegalOp => 3#2

/-- The validation checks in their order; 0 when all pass, else the first failing check (R71). All
arithmetic is in ℤ. -/
def validate (tb base xb mine sg : Int) : Nat :=
  if tb > 16 then 1
  else if ¬(base = 2 ∨ base = 3) then 2
  else if tb - xb - sg < 1 then 3
  else if xb > 4 then 4
  else if mine ≥ 0 then 5
  else 0

/-- The DESC fields that hold the operands of a CFG (R56, R70). -/
def descOf (tb base xb : Nat) (mine : Int) (sg : Bool) : Desc :=
  ⟨BitVec.ofNat 8 tb, BitVec.ofNat 8 base, BitVec.ofNat 8 xb, BitVec.ofInt 8 mine, sg⟩

/-- The checks of R71 on the values the fields of a descriptor hold. -/
def validateDesc (d : Desc) : Nat :=
  validate d.tb.toNat d.base.toNat d.xb.toNat d.mine.toInt d.sg.toNat

/-- The status word, the result of RDCFG (R57, R75). -/
def statusWord (x : Arch) : Word64 :=
  let m : BitVec 8 :=
    if x.cfgValid then x.desc.tb - x.desc.xb - (BitVec.ofBool x.desc.sg).setWidth 8 else 0#8
  0#12 ++ x.lastCause ++ BitVec.ofBool x.cfgValid ++ m ++ 0#7 ++ BitVec.ofBool x.desc.sg
    ++ x.desc.mine ++ x.desc.xb ++ x.desc.base ++ x.desc.tb

end Sys2Proof.Machine
end

