-- ==== Sys2Proof/Machine/Ops.lean ====
section
/-! DEFINITION. The shared operations: giving a response (00_scope.md rule R14), the two errors shared
by several commands (60_exceptions.md rules R141 and R142), and the unit's ports at a clock edge
(30_encoding.md rules R50 to R52, 70_reset_and_hazards.md rules R160 to R167). An error is a
response, not a trap: no pc, mode or status is saved anywhere (60_exceptions.md rule R146). -/

namespace Sys2Proof.Machine

/-! ### Responses -/

/-- Put a response at the end of the commands in flight; the command's latency is the next one of
the implementation's choices (R52, R165, R167). -/
def State.push (s : State) (r : Response) : State :=
  { s with
    outstanding := s.outstanding ++ [⟨r, s.latencies.headD 0⟩]
    latencies := s.latencies.tail }

/-- `respond(status, data)`: end the command with this response (R14). -/
def State.respond (s : State) (status : Status) (data : Word64) :
    Host.Outcome State Fault Refusal :=
  .next (s.push ⟨status, data⟩)

/-- `raise S(info)`: a response with an error status and no further effect (R14, R146). This is all
the unit has in place of taking an exception. -/
def State.raise (s : State) (status : Status) (info : Word64) :
    Host.Outcome State Fault Refusal :=
  s.respond status info

/-- A reserved opcode: ILLEGAL_OP with data 0, whatever CFG_VALID is (R54, R141, R144). -/
def State.illegalOpcode (s : State) : Host.Outcome State Fault Refusal := s.raise .illegalOp 0#64

/-- A command that needs a descriptor: NOT_CONFIGURED with data 0 when there is none, else OK with
the command's result (R142, R144). Such a command writes no state (R25). -/
def State.whenConfigured (s : State) (result : Arith → Desc → Word64) :
    Host.Outcome State Fault Refusal :=
  if s.arch.cfgValid then s.respond .ok (result s.arith s.arch.desc)
  else s.raise .notConfigured 0#64

/-- Replace the whole architectural state: the one indivisible update of CFG (R44, R70). -/
def State.withArch (s : State) (x : Arch) : State := { s with arch := x }

/-! ### The ports at one rising edge -/

/-- DEPTH, the largest number of commands in flight (R167). -/
def State.depth (s : State) : Nat := s.depthPred + 1

/-- What the host drives at the coming edge; past the end of the list, nothing (R50). -/
def State.edge (s : State) : EdgeIn := s.inputs.headD EdgeIn.idle

/-- `req_ready`: 0 only while DEPTH commands are in flight, or during reset (R164). DEDUCED (log entry
8), safe: it is 0 at an edge that finds DEPTH commands in flight even if the same edge transfers a
response. DESIGN CHOICE (log entry 16), unsafe for a claim about the port at such an edge: it is 0 at
every edge with `rst = 1`, where R164 permits 0 and does not require it. -/
def State.reqReady (s : State) : Bool := !s.edge.rst && decide (s.outstanding.length < s.depth)

/-- The edge accepts a command (R51). -/
def State.accepts (s : State) : Bool := !s.edge.rst && s.edge.reqValid && s.reqReady

/-- The response on offer: that of the oldest command in flight, once its latency has passed (R165,
R167). DEDUCED (log entry 9), safe: a later response may come due earlier, but waits its turn.
DESIGN CHOICE (log entry 15), unsafe: it is on offer at an edge with `rst = 1` too. -/
def State.offered (s : State) : Option Response :=
  match s.outstanding with
  | [] => none
  | p :: _ => if p.wait = 0 then some p.rsp else none

/-- `rsp_valid` (R50). At an edge with `rst = 1` the spec says only that no response is transferred
(R160), not what the port carries; here it stays 1 for a response already on offer. DESIGN CHOICE (log
entry 15), unsafe for a claim about the port at such an edge. -/
def State.rspValid (s : State) : Bool := s.offered.isSome

/-- `rsp_status`, 2 bits (R50, R140); the spec gives the port no value while `rsp_valid = 0`. At an
edge with `rst = 1`: as `rspValid` (log entry 15). -/
def State.rspStatus (s : State) : Option (BitVec 2) := s.offered.map fun r => Status.code r.status

/-- `rsp_data` (R50); the spec gives the port no value while `rsp_valid = 0`. At an edge with
`rst = 1`: as `rspValid` (log entry 15). -/
def State.rspData (s : State) : Option Word64 := s.offered.map Response.data

/-- The edge transfers a response (R52, R165). -/
def State.transfers (s : State) : Bool := !s.edge.rst && s.rspValid && s.edge.rspReady

/-- One edge of waiting for every command in flight (R167). -/
def tick (ps : List Pending) : List Pending := ps.map fun p => { p with wait := p.wait - 1 }

/-- An edge with `rst = 0`, but for the command it accepts: the host's inputs of the edge are used
up, a response may be transferred, and every latency runs on (R165, R167). -/
def State.settle (s : State) : State :=
  { s with
    outstanding := tick (if s.transfers then s.outstanding.tail else s.outstanding)
    delivered := if s.transfers then s.delivered ++ s.offered.toList else s.delivered
    inputs := s.inputs.tail }

/-- An edge with `rst = 1`: the reset state; nothing is accepted or transferred, the commands in
flight are discarded, and the response stream starts anew (R160, R161, R162). -/
def State.resetEdge (s : State) : State :=
  { s with arch := Arch.reset, outstanding := [], delivered := [], inputs := s.inputs.tail }

/-! ### Placing a command at the port -/

/-- Let the host take as many of the oldest responses as it takes for a command to be accepted. -/
def State.makeRoom (s : State) : State :=
  { s with
    outstanding := s.outstanding.drop (s.outstanding.length - s.depthPred)
    delivered := s.delivered ++
      (s.outstanding.take (s.outstanding.length - s.depthPred)).map Pending.rsp }

/-- The host offers a command at the coming edge, with `rst = 0` (R51, R164). -/
def State.offer (s : State) (c : Command) : State :=
  { s with inputs := { s.edge with rst := false, reqValid := true, req := c } :: s.inputs.tail }

end Sys2Proof.Machine
end

