-- ==== Sys2Proof/Machine/Codec.lean ====
section
/-! DEFINITION. The scalar codec: ENC and DEC (41_scalar_codec.md). -/

namespace Sys2Proof.Machine

/-! ### Encode -/

/-- Scan j = top, top-1, ..., 1 for the first j whose test passes; 0 when none does (R95). The test
of j is given the index `j - 1` it compares against. -/
def scanDown (test : Nat → Bool) : Nat → Nat
  | 0 => 0
  | j + 1 => if test j then j + 1 else scanDown test j

/-- Step 4, the remap to inner space (R94). -/
def innerOf (ar : Arith) (d : Desc) (v : ℚ) : ℚ :=
  ar.add (ar.mul v (oneMinusA ar d)) (affineA ar d)

/-- Step 5, the exponent search (R95): the comparison is `≤`. -/
def exponentIndex (ar : Arith) (d : Desc) (inner : ℚ) : Nat :=
  scanDown (fun j => decide (ar.mul (boundary d) (scale ar d j) ≤ inner)) (topIndex d)

/-- Step 6, the scaled significand `t = (inner ⊘ scale[i] ⊖ 1) ⊗ step` (R96). -/
def scaledSignificand (ar : Arith) (d : Desc) (inner : ℚ) (i : Nat) : ℚ :=
  ar.mul (ar.sub (ar.div inner (scale ar d i)) 1) (stepScale d)

/-- Step 6, the mantissa: t rounded to nearest, ties away from zero, clamped above (R96, D39). That
it is never negative is the spec's own remark [derived] (R96); a negative one would become 0 here
(DEDUCED, log entry 11). -/
def mantissaOf (ar : Arith) (d : Desc) (inner : ℚ) (i : Nat) : Nat :=
  let m := rha (scaledSignificand ar d inner i)
  (if m > mantissaMask d then (mantissaMask d : Int) else m).toNat

/-- Steps 4 to 7 for a magnitude below `max_value`, without the sign (R94 to R97). -/
def encodeMagnitude (ar : Arith) (d : Desc) (v : ℚ) : Code :=
  let inner := innerOf ar d v
  let i := exponentIndex ar d inner
  packFields d i (mantissaOf ar d inner i)

/-- `encode_value(w)` (R90): NaN, negative input to an unsigned format, saturation, then steps 4
to 7. -/
def encodeValue (ar : Arith) (d : Desc) (w : Word64) : Code :=
  if isNaN w then 0#16
  else if !d.sg && neg w then 0#16
  else
    let sgn := if d.sg && neg w then signMask d else 0#16
    if isInf w || decide (maxValue ar d ≤ absVal w) then sgn ||| maxCode d
    else sgn ||| encodeMagnitude ar d (absVal w)

/-- ENC (R98). -/
def execEnc (w : Word64) (s : State) : Host.Outcome State Fault Refusal :=
  s.whenConfigured fun ar d => zext64 (encodeValue ar d w)

/-! ### Decode -/

/-- The exponent index of a masked code (R101 step 1). -/
def exponentField (d : Desc) (y : Code) : Nat :=
  (y.toNat >>> mantissaBits d) &&& exponentMask d

/-- The mantissa of a masked code (R101 step 1). -/
def mantissaField (d : Desc) (y : Code) : Nat := y.toNat &&& mantissaMask d

/-- `decode_value(x)` (R101): mask, magnitude, output rounding, sign. -/
def decodeValue (ar : Arith) (d : Desc) (x : Code) : Word64 :=
  let y := x &&& codeMask d
  let r := mag ar d (exponentField d y) (mantissaField d y)
  b64 (outputMagnitude ar r) (y &&& signMask d != 0#16)

/-- DEC (R105). -/
def execDec (x : Code) (s : State) : Host.Outcome State Fault Refusal :=
  s.whenConfigured fun ar d => decodeValue ar d x

end Sys2Proof.Machine
end

