-- ==== Sys2Proof/Machine/Order.lean ====
section
/-! DEFINITION. The order-preserving transform: TOCMP, FRCMP and ABS (42_order_transform.md). None
depends on ARITH. -/

namespace Sys2Proof.Machine

/-- `to_cmp(x)` (R120). -/
def toCmp (d : Desc) (x : Code) : Code :=
  if x &&& signMask d = 0#16 then (signMask d ||| x) &&& codeMask d
  else ~~~x &&& codeMask d

/-- `from_cmp(u)` (R121). -/
def fromCmp (d : Desc) (u : Code) : Code :=
  if u &&& signMask d = signMask d then (u &&& ~~~signMask d) &&& codeMask d
  else ~~~u &&& codeMask d

/-- Clear the sign bit and no other (R124). -/
def absCode (d : Desc) (x : Code) : Code := x &&& ~~~signMask d

/-- TOCMP (R122). -/
def execTocmp (x : Code) (s : State) : Host.Outcome State Fault Refusal :=
  s.whenConfigured fun _ d => zext64 (toCmp d x)

/-- FRCMP (R123). -/
def execFrcmp (u : Code) (s : State) : Host.Outcome State Fault Refusal :=
  s.whenConfigured fun _ d => zext64 (fromCmp d u)

/-- ABS (R124). -/
def execAbs (x : Code) (s : State) : Host.Outcome State Fault Refusal :=
  s.whenConfigured fun _ d => zext64 (absCode d x)

end Sys2Proof.Machine
end

