-- ==== Sys2Proof/Machine/Delta.lean ====
section
/-! DEFINITION. The delta codec: DENC and DDEC (43_delta_codec.md). All arithmetic is in ℤ, with no
correction at the sign boundary (R134); neither command depends on ARITH. -/

namespace Sys2Proof.Machine

/-- `clamp(v, lo, hi)` (00_scope.md rule R9). -/
def clamp (v lo hi : Int) : Int := min (max v lo) hi

/-- The signed difference of two comparable values (R130). -/
def deltaOf (d : Desc) (last x : Code) : Int :=
  ((toCmp d x).toNat : Int) - ((toCmp d last).toNat : Int)

/-- DDEC's result: `last` itself for delta 0 (R132), else the code of the saturated target (R131,
R133). -/
def applyDelta (d : Desc) (last : Code) (delta : Int) : Code :=
  if delta = 0 then last
  else fromCmp d (BitVec.ofInt 16 (clamp ((toCmp d last).toNat + delta) 0 (maxCmp d)))

/-- DENC (R130). -/
def execDenc (last x : Code) (s : State) : Host.Outcome State Fault Refusal :=
  s.whenConfigured fun _ d => sext64 (deltaOf d last x)

/-- DDEC (R131). -/
def execDdec (last : Code) (delta : Int) (s : State) : Host.Outcome State Fault Refusal :=
  s.whenConfigured fun _ d => zext64 (applyDelta d last delta)

end Sys2Proof.Machine
end

