-- ==== Sys2Proof/Machine/Descriptor.lean ====
section
/-! DEFINITION. The descriptor commands CFG, RDCFG, MAXV and MINV (40_descriptor.md). -/

namespace Sys2Proof.Machine

/-- The architectural state a failed CFG leaves (R70, R73). -/
def failedArch (cause : Nat) : Arch := ⟨Desc.zero, false, BitVec.ofNat 3 cause⟩

/-- The architectural state a successful CFG leaves (R70, R72). -/
def configuredArch (d : Desc) : Arch := ⟨d, true, 0#3⟩

/-- CFG: validate the fields, and write DESC, CFG_VALID and LAST_CAUSE together (R70 to R73). An
operand that no configuration word can hold is cut to its field first (log entry 12). -/
def execCfg (tb base xb : Nat) (mine : Int) (sg : Bool) (s : State) :
    Host.Outcome State Fault Refusal :=
  let d := descOf tb base xb mine sg
  let cause := validateDesc d
  if cause = 0 then (s.withArch (configuredArch d)).respond .ok 0#64
  else (s.withArch (failedArch cause)).raise .cfgError (BitVec.ofNat 64 cause)

/-- RDCFG: the status word, in every state (R75). -/
def execRdcfg (s : State) : Host.Outcome State Fault Refusal := s.respond .ok (statusWord s.arch)

/-- The word MAXV returns (R77). -/
def maxvWord (ar : Arith) (d : Desc) : Word64 := b64 (outputMagnitude ar (maxValue ar d)) false

/-- The word MINV returns: the MAXV word with bit 63 set, or +0.0 for an unsigned format (R78). -/
def minvWord (ar : Arith) (d : Desc) : Word64 :=
  if d.sg then maxvWord ar d ||| (1#64 <<< 63) else 0#64

/-- MAXV (R77). -/
def execMaxv (s : State) : Host.Outcome State Fault Refusal := s.whenConfigured maxvWord

/-- MINV (R78). -/
def execMinv (s : State) : Host.Outcome State Fault Refusal := s.whenConfigured minvWord

end Sys2Proof.Machine
end

