-- ==== Sys2Proof/Machine/Reserved.lean ====
section
/-! DEFINITION. The reserved opcodes (30_encoding.md rule R54, 60_exceptions.md rule R141). -/

namespace Sys2Proof.Machine

/-- Opcode 0x0 (R54, R141). -/
def execReserved0 (s : State) : Host.Outcome State Fault Refusal := s.illegalOpcode

/-- Opcode 0xC (R54, R141). -/
def execReservedC (s : State) : Host.Outcome State Fault Refusal := s.illegalOpcode

/-- Opcode 0xD (R54, R141). -/
def execReservedD (s : State) : Host.Outcome State Fault Refusal := s.illegalOpcode

/-- Opcode 0xE (R54, R141). -/
def execReservedE (s : State) : Host.Outcome State Fault Refusal := s.illegalOpcode

/-- Opcode 0xF (R54, R141). -/
def execReservedF (s : State) : Host.Outcome State Fault Refusal := s.illegalOpcode

end Sys2Proof.Machine
end

