-- ==== Sys2Proof/Machine/Dispatch.lean ====
section
/-! DEFINITION. The meaning of every command, one arm for each (30_encoding.md rule R53). -/

namespace Sys2Proof.Machine

def exec (i : Instr) (s : State) : Host.Outcome State Fault Refusal :=
  match i with
  | .reserved0 => Sys2Proof.Machine.execReserved0 s
  | .cfg tb base xb mine sg => Sys2Proof.Machine.execCfg tb base xb mine sg s
  | .rdcfg => Sys2Proof.Machine.execRdcfg s
  | .maxv => Sys2Proof.Machine.execMaxv s
  | .minv => Sys2Proof.Machine.execMinv s
  | .enc w => Sys2Proof.Machine.execEnc w s
  | .dec x => Sys2Proof.Machine.execDec x s
  | .abs x => Sys2Proof.Machine.execAbs x s
  | .tocmp x => Sys2Proof.Machine.execTocmp x s
  | .frcmp u => Sys2Proof.Machine.execFrcmp u s
  | .denc last x => Sys2Proof.Machine.execDenc last x s
  | .ddec last delta => Sys2Proof.Machine.execDdec last delta s
  | .reservedC => Sys2Proof.Machine.execReservedC s
  | .reservedD => Sys2Proof.Machine.execReservedD s
  | .reservedE => Sys2Proof.Machine.execReservedE s
  | .reservedF => Sys2Proof.Machine.execReservedF s

end Sys2Proof.Machine
end

