-- ==== Sys2Proof/Machine/Step.lean ====
section
/-! DEFINITION. One step: one rising edge of `clk` (30_encoding.md rule R50, 70_reset_and_hazards.md
rules R160, R164 and R165). An accepted command executes at the edge that accepts it (R51, R166),
and its response waits for the host. -/

namespace Sys2Proof.Machine

/-- One rising edge of the clock. DESIGN CHOICE (log entry 1), safe: an accepted command takes its
whole effect at the accepting edge. -/
def step (s : State) : Host.Outcome State Fault Refusal :=
  if s.edge.rst then .next s.resetEdge
  else if s.accepts then exec (decode s.edge.req) s.settle
  else .next s.settle

/-- The host offers, at the coming edge, the command whose bits are the `nbits` low bits of `w`, and
has taken as many responses as it takes for the edge to accept it (log entry 4). -/
def State.withFetchWord (s : State) (nbits w : Nat) : State :=
  s.makeRoom.offer (Command.ofNat (w % 2 ^ nbits))

end Sys2Proof.Machine
end

