-- ==== Sys2Proof/Safety.lean ====
section
/-! DEFINITION. The terms the statements use: the invariant of the machine, the unit as the function
`step(state, command) -> (state', response)` of 00_scope.md rule R3, and its fold over a sequence of
commands (20_memory.md rule R45). -/

namespace Sys2Proof.Machine

/-- The next state of an outcome, if it is one. -/
def nextState (o : Host.Outcome State Fault Refusal) : Option State :=
  match o with
  | .next t => some t
  | .fault _ => none
  | .refused _ => none

/-- The ranges of R22 for a valid descriptor. -/
abbrev Desc.Legal (d : Desc) : Prop :=
  1 ≤ d.tb.toNat ∧ d.tb.toNat ≤ 16 ∧ (d.base.toNat = 2 ∨ d.base.toNat = 3) ∧ d.xb.toNat ≤ 4 ∧
    -128 ≤ d.mine.toInt ∧ d.mine.toInt ≤ -1 ∧ d.xb.toNat + d.sg.toNat + 1 ≤ d.tb.toNat

/-- What CFG and reset establish of the architectural state (R22, R24): a legal descriptor and no
cause while CFG_VALID = 1; every DESC field 0 and a cause of at most 5 while CFG_VALID = 0. -/
abbrev Arch.Inv (x : Arch) : Prop :=
  (x.cfgValid = true → Desc.Legal x.desc ∧ x.lastCause = 0#3) ∧
    (x.cfgValid = false → x.desc = Desc.zero ∧ x.lastCause.toNat ≤ 5)

/-- The data an error response carries (R140). -/
abbrev Response.Wf (r : Response) : Prop :=
  (r.status = .cfgError → 1 ≤ r.data.toNat ∧ r.data.toNat ≤ 5) ∧
    (r.status = .notConfigured ∨ r.status = .illegalOp → r.data = 0#64)

/-- The invariant of the machine: that of the architectural state; at most DEPTH commands in flight
(R167); and every response, in flight or delivered, with data as its status says (R140). -/
abbrev State.Inv (s : State) : Prop :=
  Arch.Inv s.arch ∧ s.outstanding.length ≤ s.depth ∧
    (∀ p ∈ s.outstanding, Response.Wf p.rsp) ∧ (∀ r ∈ s.delivered, Response.Wf r)

/-- A state with a valid descriptor, within the ranges CFG establishes (R22). -/
abbrev State.Configured (s : State) : Prop := s.arch.cfgValid = true ∧ Desc.Legal s.arch.desc

/-- The command `i` completes with status OK and the result `v`: the next state is `s` with that one
response more in flight, and everything else of `s` as it was but for the latency used up. -/
abbrev State.Answers (s : State) (i : Instr) (v : Word64) : Prop :=
  exec i s = .next (s.push ⟨.ok, v⟩)

/-- The real order of words that are not NaNs: minus infinity least, plus infinity greatest, finite
words by their values, so that the two zeros are equal (41_scalar_codec.md rule R99). -/
abbrev realLe (w w' : Word64) : Prop :=
  (isInf w = true ∧ f64Sign w = true) ∨ (isInf w' = true ∧ f64Sign w' = false) ∨
    (isInf w = false ∧ isInf w' = false ∧ val w ≤ val w')

/-- A unit with the given parameter and architectural state, nothing in flight, and no host. -/
def unitAt (ar : Arith) (x : Arch) : State := { State.reset with arith := ar, arch := x }

/-- `step(state, command) -> (state', response)` (R3): the command run on a unit by itself. -/
def unitStep (ar : Arith) (x : Arch) (i : Instr) : Arch × Response :=
  match exec i (unitAt ar x) with
  | .next t => (t.arch, (t.outstanding.map Pending.rsp).headD ⟨.illegalOp, 0#64⟩)
  | .fault _ => (x, ⟨.illegalOp, 0#64⟩)
  | .refused _ => (x, ⟨.illegalOp, 0#64⟩)

/-- `step` folded over a sequence of commands: the state it leaves and the sequence of responses
(R45). -/
def unitRun (ar : Arith) (x : Arch) : List Command → Arch × List Response
  | [] => (x, [])
  | c :: cs =>
    let (x', r) := unitStep ar x (decode c)
    let (y, rs) := unitRun ar x' cs
    (y, r :: rs)

/-- The responses since the last reset, in order: those delivered, then those in flight. -/
def State.responses (s : State) : List Response := s.delivered ++ s.outstanding.map Pending.rsp

/-- The machine is where `step` folded over the commands `cs` from the reset state leaves it, with
exactly their responses, in their order (R45). -/
abbrev State.Explained (s : State) (cs : List Command) : Prop :=
  unitRun s.arith Arch.reset cs = (s.arch, s.responses)

/-- The command the coming edge accepts, if any (R51). -/
def State.accepted (s : State) : List Command := if s.accepts then [s.edge.req] else []

end Sys2Proof.Machine
end

