-- ==== Sys2Proof/Certificates/Slice0/Obligations.lean ====
section
/-! DEFINITION. The statements about the unit, from the numbered rules of spec/. -/

open Sys2Proof Sys2Proof.Machine

/-! ### Reset, the invariant, and the step -/

/-- R21, R161: after reset every architectural field is 0 and nothing is in flight; and every
command that needs a descriptor answers NOT_CONFIGURED there. -/
def Obligations.ResetLeavesNoDescriptor : Prop :=
  State.reset.arch.desc.tb = 0#8 ∧ State.reset.arch.desc.base = 0#8 ∧
  State.reset.arch.desc.xb = 0#8 ∧ State.reset.arch.desc.mine = 0#8 ∧
  State.reset.arch.desc.sg = false ∧ State.reset.arch.cfgValid = false ∧
  State.reset.arch.lastCause = 0#3 ∧ State.reset.outstanding = [] ∧
  ∀ i : Instr, i.needsDescriptor = true →
    exec i State.reset = .next (State.reset.push ⟨.notConfigured, 0#64⟩)

/-- The machine's invariant holds after reset (R21, R22). -/
def Obligations.ResetMeetsInvariant : Prop := State.Inv State.reset

/-- R22, R24, R140, R167: every step keeps the descriptor legal while CFG_VALID = 1 and zero while
CFG_VALID = 0, at most DEPTH commands in flight, and the data of every error response in its
range. -/
def Obligations.StepKeepsInvariant : Prop :=
  ∀ s t : State, State.Inv s → step s = .next t → State.Inv t

/-- R145, R146: no state stops the machine; an error is a response. -/
def Obligations.StepNeverStops : Prop := ∀ s : State, ∃ t, step s = .next t

/-- R51, R164: an edge with `rst = 0`, `req_valid = 1` and room in flight runs the command its
request decodes to, on the state in which the edge's other effects have happened (`settle`); those
leave the architectural state and the parameters alone, and use up the edge's inputs. That the
command runs at its accepting edge, and that the inputs are a list, are the model's choices (log
entries 1 and 2). -/
def Obligations.StepRunsDecodedCommand : Prop :=
  ∀ (s : State) (i : Instr), s.edge.rst = false → s.edge.reqValid = true →
    s.outstanding.length < s.depth → decode s.edge.req = i → i.wellFormed = true →
    step s = exec i s.settle ∧ s.settle.arch = s.arch ∧ s.settle.arith = s.arith ∧
      s.settle.depthPred = s.depthPred ∧ s.settle.latencies = s.latencies ∧
      s.settle.inputs = s.inputs.tail

/-- R160, R162: an edge with `rst = 1` accepts nothing and transfers nothing, discards what is in
flight and leaves the reset values; the very next edge may accept a command. The record of
delivered responses, emptied here, is the model's own (log entry 3), and that `req_ready` is 0 at the
edge is the model's choice: R164 permits it and does not require it (log entry 16). -/
def Obligations.ResetEdgeDiscardsEverything : Prop :=
  ∀ s : State, s.edge.rst = true →
    s.accepts = false ∧ s.transfers = false ∧ s.reqReady = false ∧
    ∃ t, step s = .next t ∧ t.arch = Arch.reset ∧ t.outstanding = [] ∧ t.delivered = [] ∧
      t.inputs = s.inputs.tail ∧ t.latencies = s.latencies ∧ t.arith = s.arith ∧
      t.depthPred = s.depthPred ∧
      (t.edge.rst = false → t.edge.reqValid = true → t.accepts = true)

/-- R3, R51, R164, R166: an edge without reset either accepts the command offered, and then the
architectural state and the sequence of responses are those of the unit's step function on the old
state; or accepts none, and then both are as they were. It accepts exactly when the command is
offered and fewer than DEPTH commands are in flight. That a command has its effect at its accepting
edge, and that a unit with DEPTH commands in flight does not accept even while it transfers a
response, are the model's (log entries 1 and 8). -/
def Obligations.EdgeIsUnitStep : Prop :=
  ∀ s : State, s.edge.rst = false →
    (s.accepts = true ↔ s.edge.reqValid = true ∧ s.outstanding.length < s.depth) ∧
    ∃ t, step s = .next t ∧ t.arith = s.arith ∧ t.depthPred = s.depthPred ∧
      (s.accepts = true →
        t.arch = (unitStep s.arith s.arch (decode s.edge.req)).1 ∧
        t.responses = s.responses ++ [(unitStep s.arith s.arch (decode s.edge.req)).2]) ∧
      (s.accepts = false → t.arch = s.arch ∧ t.responses = s.responses)

/-- R165: a response on offer that the host does not take stays on offer, the same status and data;
one that the host takes is delivered, after the earlier ones; otherwise nothing is delivered. The
record of delivered responses, and that a response waits for the earlier ones, are the model's (log
entries 3 and 9). So is the first clause where the edge coming at `t` has `rst = 1`: the spec does not
say what the response ports carry at such an edge, and the model keeps a response on offer there (log
entry 15). -/
def Obligations.ResponseHandshake : Prop :=
  ∀ s t : State, s.edge.rst = false → step s = .next t →
    (∀ r, s.offered = some r → s.edge.rspReady = false →
      t.offered = some r ∧ t.delivered = s.delivered) ∧
    (∀ r, s.offered = some r → s.edge.rspReady = true → t.delivered = s.delivered ++ [r]) ∧
    (s.offered = none → t.delivered = s.delivered)

/-- R167: the oldest response in flight is on offer once its latency has passed, whatever the host
does meanwhile short of a reset. How a latency is counted is the model's (log entries 6 and 9). So is
the conclusion where the edge coming after the `k` edges has `rst = 1`: the spec does not say what the
response ports carry at such an edge, and the model keeps a response on offer there (log entry 15). -/
def Obligations.OldestResponseComesDue : Prop :=
  ∀ (k : Nat) (s : State) (r : Response) (ps : List Pending),
    s.outstanding = ⟨r, k⟩ :: ps → (∀ e ∈ s.inputs.take k, e.rst = false) →
    ∃ t : State, Sys2Proof.core.run k s = .next t ∧ t.offered = some r

/-- The reset state is explained by the empty sequence of commands (R45). -/
def Obligations.ResetIsExplained : Prop := State.reset.Explained []

/-- R45: the state and the sequence of responses are always the unit's step function folded over the
sequence of commands accepted since the last reset. That a command enters the fold at its accepting
edge, and that the responses taken are recorded in the state, are the model's choices (log entries 1
and 3). -/
def Obligations.ResponsesFoldAcceptedCommands : Prop :=
  ∀ (s t : State) (cs : List Command), s.Explained cs → step s = .next t →
    t.Explained (if s.edge.rst then [] else cs ++ s.accepted)

/-! ### Encoding -/

/-- Decode and encode agree: every well-formed command, with every operand, is read back from its
encoding (R53, R55, R56, R63). -/
def Obligations.DecodeEncodeAgree : Prop :=
  ∀ i : Instr, i.wellFormed = true → decode (encode i) = i

/-- R51, R53, R61: every triple decodes to a well-formed command of its own opcode. -/
def Obligations.EveryTripleDecodes : Prop :=
  ∀ c : Command, (decode c).wellFormed = true ∧ (decode c).opcode = c.op

/-- R60: bits outside those R55 and R56 list for a format have no effect: two triples that agree on
the bits the format reads decode to the same command. -/
def Obligations.IgnoredBitsHaveNoEffect : Prop :=
  ∀ c c' : Command, c.op = c'.op →
    (c.op = 0x1#4 → c.a.extractLsb' 0 33 = c'.a.extractLsb' 0 33) →
    (c.op = 0x5#4 → c.a = c'.a) →
    (c.op ∈ [0x6#4, 0x7#4, 0x8#4, 0x9#4, 0xA#4, 0xB#4] →
      c.a.extractLsb' 0 16 = c'.a.extractLsb' 0 16) →
    (c.op = 0xA#4 → c.b.extractLsb' 0 16 = c'.b.extractLsb' 0 16) →
    (c.op = 0xB#4 → c.b = c'.b) →
    decode c = decode c'

/-- Sample words of the spec decode to the commands they stand for (R53, R56, R63; the triples are
those of 95_test_vectors.md). -/
def Obligations.SampleWordsDecode : Prop :=
  decode ⟨0x1#4, 0x00000001F804020C#64, 0#64⟩ = .cfg 12 2 4 (-8) true ∧
  decode ⟨0x5#4, 0x3FF9126E978D4FDF#64, 0#64⟩ = .enc 0x3FF9126E978D4FDF#64 ∧
  decode ⟨0x7#4, 0x000000000000FFF1#64, 0#64⟩ = .abs 0xFFF1#16 ∧
  decode ⟨0xA#4, 0x000000000000089F#64, 0x00000000000000E3#64⟩ = .denc 0x89F#16 0xE3#16 ∧
  decode ⟨0xB#4, 0x00000000000000E3#64, 0xFFFFFFFFFFFFFE7D#64⟩ = .ddec 0xE3#16 (-387) ∧
  decode ⟨0xF#4, 0x3FF0000000000000#64, 0#64⟩ = .reservedF

/-! ### Status and frames -/

/-- R141: a reserved opcode answers ILLEGAL_OP with data 0 and changes no state, whatever its
operands and CFG_VALID. -/
def Obligations.ReservedOpcodesAnswerIllegal : Prop :=
  (∀ s : State, ∀ i ∈ [Instr.reserved0, .reservedC, .reservedD, .reservedE, .reservedF],
    exec i s = .next (s.push ⟨.illegalOp, 0#64⟩)) ∧
  ∀ (s : State) (c : Command), c.op ∈ [0x0#4, 0xC#4, 0xD#4, 0xE#4, 0xF#4] →
    exec (decode c) s = .next (s.push ⟨.illegalOp, 0#64⟩)

/-- R142: a command that needs a descriptor answers NOT_CONFIGURED with data 0 and changes no state
while CFG_VALID = 0; CFG and RDCFG never answer so; CFG_VALID = 0 holds after reset and after any
CFG that answers CFG_ERROR. -/
def Obligations.NeedsDescriptor : Prop :=
  (∀ (s : State) (i : Instr), s.arch.cfgValid = false →
    i ∈ [Instr.maxv, .minv] ∨ (∃ w, i = .enc w) ∨ (∃ x, i = .dec x) ∨ (∃ x, i = .abs x) ∨
      (∃ x, i = .tocmp x) ∨ (∃ u, i = .frcmp u) ∨ (∃ l x, i = .denc l x) ∨ (∃ l k, i = .ddec l k) →
    exec i s = .next (s.push ⟨.notConfigured, 0#64⟩)) ∧
  (∀ (ar : Arith) (x : Arch) (i : Instr), i.isCfg = true ∨ i = .rdcfg →
    (unitStep ar x i).2.status ≠ .notConfigured) ∧
  State.reset.arch.cfgValid = false ∧
  ∀ (ar : Arith) (x : Arch) (i : Instr), i.isCfg = true →
    (unitStep ar x i).2.status = .cfgError → (unitStep ar x i).1.cfgValid = false

/-- R25, with the frame of every command: no command but CFG writes architectural state; no command
touches what the host has taken or will send, or the parameters; each adds exactly one response at
the end of those in flight, and leaves the others as they are. An edge changes architectural state
only by a reset or by accepting a CFG. One response per command is R52's; the rest of the frame speaks
of the model's own choices: the effect at the accepting edge, the list of inputs, the record of
delivered responses and the list of latencies (log entries 1, 2, 3 and 6). -/
def Obligations.OnlyCfgWritesState : Prop :=
  (∀ s t : State, step s = .next t → t.arch ≠ s.arch →
    s.edge.rst = true ∨ s.accepts = true ∧ (decode s.edge.req).isCfg = true) ∧
  ∀ (i : Instr) (s : State), ∃ t, exec i s = .next t ∧
    (i.isCfg = false → t.arch = s.arch) ∧
    t.delivered = s.delivered ∧ t.inputs = s.inputs ∧ t.arith = s.arith ∧
    t.depthPred = s.depthPred ∧ t.latencies = s.latencies.tail ∧
    ∃ r, t.outstanding = s.outstanding ++ [⟨r, s.latencies.headD 0⟩]

/-- R44: a command issued twice gives the same response twice and leaves the state the first one
left; every command but CFG leaves the state unchanged. -/
def Obligations.CommandsAreIdempotent : Prop :=
  ∀ (ar : Arith) (x : Arch) (i : Instr),
    unitStep ar (unitStep ar x i).1 i = unitStep ar x i ∧
      (i.isCfg = false → (unitStep ar x i).1 = x)

/-! ### Descriptor commands -/

/-- R72: a CFG whose fields pass the checks answers OK with data 0; then CFG_VALID is 1, LAST_CAUSE
is 0, and DESC holds the fields, which are in the ranges of R22. -/
def Obligations.CfgSucceeds : Prop :=
  ∀ (s : State) (tb base xb : Nat) (mine : Int) (sg : Bool),
    (Instr.cfg tb base xb mine sg).wellFormed = true →
    tb ≤ 16 → base = 2 ∨ base = 3 → 1 ≤ (tb : Int) - xb - sg.toNat → xb ≤ 4 → mine < 0 →
    ∃ x : Arch, exec (.cfg tb base xb mine sg) s = .next ((s.withArch x).push ⟨.ok, 0#64⟩) ∧
      x.cfgValid = true ∧ x.lastCause = 0#3 ∧ x.desc.tb.toNat = tb ∧ x.desc.base.toNat = base ∧
      x.desc.xb.toNat = xb ∧ x.desc.mine.toInt = mine ∧ x.desc.sg = sg ∧ Desc.Legal x.desc

/-- R143: a failing CFG answers CFG_ERROR with the first failing check as the cause, keeps the same
cause in LAST_CAUSE, and leaves CFG_VALID = 0 and every DESC field 0 whatever they were. -/
def Obligations.CfgReportsFirstFailingCheck : Prop :=
  ∀ (s : State) (tb base xb : Nat) (mine : Int) (sg : Bool) (cause : Nat),
    (Instr.cfg tb base xb mine sg).wellFormed = true →
    (cause = 1 ∧ 16 < tb) ∨
    (cause = 2 ∧ tb ≤ 16 ∧ base ≠ 2 ∧ base ≠ 3) ∨
    (cause = 3 ∧ tb ≤ 16 ∧ (base = 2 ∨ base = 3) ∧ (tb : Int) - xb - sg.toNat < 1) ∨
    (cause = 4 ∧ tb ≤ 16 ∧ (base = 2 ∨ base = 3) ∧ 1 ≤ (tb : Int) - xb - sg.toNat ∧ 4 < xb) ∨
    (cause = 5 ∧ tb ≤ 16 ∧ (base = 2 ∨ base = 3) ∧ 1 ≤ (tb : Int) - xb - sg.toNat ∧ xb ≤ 4 ∧
      0 ≤ mine) →
    exec (.cfg tb base xb mine sg) s =
      .next ((s.withArch ⟨⟨0#8, 0#8, 0#8, 0#8, false⟩, false, BitVec.ofNat 3 cause⟩).push
        ⟨.cfgError, BitVec.ofNat 64 cause⟩)

/-- R75: RDCFG answers OK in every state, with the fields of the state at the places R57 gives, 0
elsewhere, and M while a (legal) descriptor is valid. -/
def Obligations.RdcfgReadsState : Prop :=
  ∀ s : State, ∃ w : Word64, s.Answers .rdcfg w ∧
    w.extractLsb' 0 8 = s.arch.desc.tb ∧ w.extractLsb' 8 8 = s.arch.desc.base ∧
    w.extractLsb' 16 8 = s.arch.desc.xb ∧ w.extractLsb' 24 8 = s.arch.desc.mine ∧
    w.getLsbD 32 = s.arch.desc.sg ∧ w.extractLsb' 33 7 = 0#7 ∧
    (s.Configured → ((w.extractLsb' 40 8).toNat : Int) =
      s.arch.desc.tb.toNat - s.arch.desc.xb.toNat - s.arch.desc.sg.toNat) ∧
    (s.arch.cfgValid = false → w.extractLsb' 40 8 = 0#8) ∧
    w.getLsbD 48 = s.arch.cfgValid ∧ w.extractLsb' 49 3 = s.arch.lastCause ∧
    w.extractLsb' 52 12 = 0#12

/-- R57, last sentence: after a successful CFG with word `a`, bits [32:0] of the status word equal
`a[32:0]`. -/
def Obligations.RdcfgEchoesCfgWord : Prop :=
  ∀ (s t : State) (a b : Word64), exec (decode ⟨0x1#4, a, b⟩) s = .next t →
    t.arch.cfgValid = true →
    ∃ w : Word64, t.Answers .rdcfg w ∧ w.extractLsb' 0 33 = a.extractLsb' 0 33

/-- R77: with a valid descriptor MAXV answers OK with a positive finite word whose value is
max_value: rounded to binary64 under EXACT, as computed under BINARY64. -/
def Obligations.MaxvIsMaxValue : Prop :=
  ∀ s : State, s.Configured → ∃ w : Word64, s.Answers .maxv w ∧
    isNaN w = false ∧ isInf w = false ∧ f64Sign w = false ∧ 0 < val w ∧
    (s.arith = .exact → val w = rne64 (mag .exact s.arch.desc (topIndex s.arch.desc)
      (mantissaMask s.arch.desc))) ∧
    (s.arith = .binary64 → val w = mag .binary64 s.arch.desc (topIndex s.arch.desc)
      (mantissaMask s.arch.desc))

/-- R78: MINV answers OK with the MAXV word with bit 63 set, the negated value, for a signed format,
and with +0.0 for an unsigned one. -/
def Obligations.MinvNegatesMaxv : Prop :=
  ∀ s : State, s.Configured → ∃ w v : Word64, s.Answers .maxv w ∧ s.Answers .minv v ∧
    (s.arch.desc.sg = true → v = w ||| 0x8000000000000000#64 ∧ val v = -val w) ∧
    (s.arch.desc.sg = false → v = 0#64)

/-! ### Numbers -/

/-- R11, R13: for 0 and for every rational of either sign short of overflow (half a unit past the
largest finite value), down to the subnormals, `rne64` gives the value of a finite binary64 word of
the argument's sign, no finite binary64 word lies nearer, and where one of another value lies as near
the fraction chosen is even; and `rne64(0) = +0.0`. -/
def Obligations.RneIsNearestEven : Prop :=
  b64 (rne64 0) false = 0#64 ∧
  ∀ (q : ℚ) (v : Word64), |q| < 2 ^ 1024 - 2 ^ 970 → v = b64 |rne64 q| (decide (q < 0)) →
    val v = rne64 q ∧ isNaN v = false ∧ isInf v = false ∧
    ∀ w : Word64, isNaN w = false → isInf w = false →
      |rne64 q - q| ≤ |val w - q| ∧
      (|rne64 q - q| = |val w - q| → val w ≠ rne64 q → f64Frac v % 2 = 0)

/-- R100, R103: under EXACT the magnitude has the closed form of R100; the snap to one changes
nothing. -/
def Obligations.ExactMagnitudeClosedForm : Prop :=
  ∀ (d : Desc) (e m : Nat), Desc.Legal d → e ≤ topIndex d → m ≤ mantissaMask d →
    mag .exact d e m =
      ((d.base.toNat : ℚ) ^ (d.mine.toInt + e) * (1 + (m : ℚ) / stepScale d)
        - (d.base.toNat : ℚ) ^ d.mine.toInt) / (1 - (d.base.toNat : ℚ) ^ d.mine.toInt)

/-! ### Scalar codec -/

/-- R91, R92, R93: ENC of a NaN answers 0; of a negative value in an unsigned format 0; of an
infinity or a magnitude of at least max_value the saturated code, exponent and mantissa all ones,
with the sign bit of a negative operand. -/
def Obligations.EncSpecialOperands : Prop :=
  ∀ (s : State) (w : Word64), s.Configured →
    (isNaN w = true → s.Answers (.enc w) 0#64) ∧
    (s.arch.desc.sg = false → neg w = true → s.Answers (.enc w) 0#64) ∧
    (isNaN w = false → (s.arch.desc.sg = true ∨ neg w = false) →
      (isInf w = true ∨ maxValue s.arith s.arch.desc ≤ absVal w) →
      ∃ v : Word64, s.Answers (.enc w) v ∧
        v.toNat = (if neg w then 2 ^ (s.arch.desc.tb.toNat - 1) else 0) +
          (2 ^ (s.arch.desc.xb.toNat + mantissaBits s.arch.desc) - 1))

/-- R94, R95, R96, R97: ENC of any other operand answers the code with the sign bit of a negative
operand, the largest exponent index whose scaled boundary is at most the inner value (0 if none),
and the mantissa rounded half away from zero and clamped to the mantissa mask. -/
def Obligations.EncFiniteOperands : Prop :=
  ∀ (s : State) (w : Word64), s.Configured → isNaN w = false → isInf w = false →
    (s.arch.desc.sg = true ∨ neg w = false) → absVal w < maxValue s.arith s.arch.desc →
    ∃ (v : Word64) (i m : Nat) (inner : ℚ), s.Answers (.enc w) v ∧
      inner = s.arith.add (s.arith.mul (absVal w) (oneMinusA s.arith s.arch.desc))
        (affineA s.arith s.arch.desc) ∧
      i ≤ 2 ^ s.arch.desc.xb.toNat - 1 ∧
      (0 < i → s.arith.mul (boundary s.arch.desc) (scale s.arith s.arch.desc (i - 1)) ≤ inner) ∧
      (∀ j, i < j → j ≤ 2 ^ s.arch.desc.xb.toNat - 1 →
        inner < s.arith.mul (boundary s.arch.desc) (scale s.arith s.arch.desc (j - 1))) ∧
      (m : Int) = min
        (rha (s.arith.mul (s.arith.sub (s.arith.div inner (scale s.arith s.arch.desc i)) 1)
          (stepScale s.arch.desc)))
        (2 ^ mantissaBits s.arch.desc - 1) ∧
      v.toNat = (if neg w then 2 ^ (s.arch.desc.tb.toNat - 1) else 0) +
        i * 2 ^ mantissaBits s.arch.desc + m

/-- R90, R98: with a valid descriptor every operand of ENC gives OK, with a code of at most
code_mask. -/
def Obligations.EncIsTotal : Prop :=
  ∀ (s : State) (w : Word64), s.Configured →
    ∃ v : Word64, s.Answers (.enc w) v ∧ v.toNat ≤ 2 ^ s.arch.desc.tb.toNat - 1

/-- R96, second fact: under EXACT the clamp never changes the mantissa of an operand below
max_value. -/
def Obligations.ExactMantissaNeedsNoClamp : Prop :=
  ∀ (d : Desc) (v : ℚ), Desc.Legal d → 0 ≤ v → v < maxValue .exact d →
    rha (scaledSignificand .exact d (innerOf .exact d v)
      (exponentIndex .exact d (innerOf .exact d v))) ≤ (mantissaMask d : Int)

/-- R99, first bullet: on the words that are not NaNs, the infinities among them, ENC is monotone in
the comparable order, under both ARITH values. -/
def Obligations.EncIsMonotone : Prop :=
  ∀ (ar : Arith) (d : Desc) (w w' : Word64), Desc.Legal d →
    isNaN w = false → isNaN w' = false → realLe w w' →
    (toCmp d (encodeValue ar d w)).toNat ≤ (toCmp d (encodeValue ar d w')).toNat

/-- R101, R104: with a valid descriptor DEC answers OK with a word that is never a NaN or an infinity:
its sign is the code's sign bit, its magnitude that of the code's exponent index and mantissa,
rounded to binary64 under EXACT. Bits [15:N] of the container have no part in it. -/
def Obligations.DecReadsFields : Prop :=
  ∀ (s : State) (x : Code), s.Configured →
    ∃ (w : Word64) (y M : Nat), s.Answers (.dec x) w ∧
      y = x.toNat % 2 ^ s.arch.desc.tb.toNat ∧
      M = s.arch.desc.tb.toNat - s.arch.desc.xb.toNat - s.arch.desc.sg.toNat ∧
      isNaN w = false ∧ isInf w = false ∧
      (f64Sign w = true ↔ s.arch.desc.sg = true ∧ 2 ^ (s.arch.desc.tb.toNat - 1) ≤ y) ∧
      absVal w = outputMagnitude s.arith
        (mag s.arith s.arch.desc (y / 2 ^ M % 2 ^ s.arch.desc.xb.toNat) (y % 2 ^ M))

/-- R102: DEC does not depend on the container bits above the width. -/
def Obligations.DecIgnoresHighBits : Prop :=
  ∀ (s : State) (x x' : Code), x &&& codeMask s.arch.desc = x' &&& codeMask s.arch.desc →
    exec (.dec x) s = exec (.dec x') s

/-- R106, sign symmetry: setting the sign bit of a code whose sign bit is clear sets bit 63 of what
DEC answers. -/
def Obligations.DecSignSymmetry : Prop :=
  ∀ (s : State) (x : Code), s.Configured → x &&& signMask s.arch.desc = 0#16 →
    s.arch.desc.sg = true →
    ∃ w : Word64, s.Answers (.dec x) w ∧
      s.Answers (.dec (x ||| signMask s.arch.desc)) (w ||| 0x8000000000000000#64)

/-- R106, re-quantization under EXACT: ENC of what DEC answers for a code gives back the code, its
bits above the width cleared, for every code but the -0 code. -/
def Obligations.ExactEncInvertsDec : Prop :=
  ∀ (s : State) (x : Code), s.Configured → s.arith = .exact →
    (s.arch.desc.sg = true → x &&& codeMask s.arch.desc ≠ signMask s.arch.desc) →
    ∃ w : Word64, s.Answers (.dec x) w ∧
      s.Answers (.enc w) (zext64 (x &&& codeMask s.arch.desc))

/-- R125, order: codes whose decoded values are in strict order have comparable values in strict
order, under both ARITH values. Under EXACT the converse holds, except for the -0 code and the +0
code: those decode to -0.0 and +0.0, which are equal as real values, and their comparable values are
adjacent. -/
def Obligations.ComparableOrderIsRealOrder : Prop :=
  (∀ (ar : Arith) (d : Desc) (x y : Code), Desc.Legal d →
    val (decodeValue ar d x) < val (decodeValue ar d y) → (toCmp d x).toNat < (toCmp d y).toNat) ∧
  (∀ (d : Desc) (x y : Code), Desc.Legal d → (toCmp d x).toNat < (toCmp d y).toNat →
    ¬(d.sg = true ∧ x &&& codeMask d = signMask d ∧ y &&& codeMask d = 0#16) →
    val (decodeValue .exact d x) < val (decodeValue .exact d y)) ∧
  ∀ d : Desc, Desc.Legal d → d.sg = true →
    decodeValue .exact d (signMask d) = 0x8000000000000000#64 ∧
    decodeValue .exact d 0#16 = 0#64 ∧
    val (decodeValue .exact d (signMask d)) = val (decodeValue .exact d 0#16) ∧
    (toCmp d (signMask d)).toNat + 1 = (toCmp d 0#16).toNat

/-! ### Order-preserving transform -/

/-- R120, R122: TOCMP answers NOT_CONFIGURED without a descriptor; with one it answers OK with the
comparable value: in a signed format the code plus the sign mask for a clear sign bit, the code mask
less the code for a set one; in an unsigned format the masked code. That only the masked code counts
is the spec's inference in R120: "The result depends only on `x & code_mask` [derived: bit N-1 is the
only bit tested, and the result is masked]"; the numeric layout is R125's [derived]. -/
def Obligations.TocmpLayout : Prop :=
  ∀ (s : State) (x : Code),
    (s.arch.cfgValid = false → exec (.tocmp x) s = .next (s.push ⟨.notConfigured, 0#64⟩)) ∧
    (s.Configured →
      ∃ (v : Word64) (N y : Nat), s.Answers (.tocmp x) v ∧ N = s.arch.desc.tb.toNat ∧
        y = x.toNat % 2 ^ N ∧
        v.toNat = if s.arch.desc.sg then
          (if y < 2 ^ (N - 1) then 2 ^ (N - 1) + y else 2 ^ N - 1 - y) else y)

/-- R121, R123: FRCMP answers OK with the code: in a signed format the comparable value less the sign
mask in the upper half, the code mask less the comparable value in the lower half; in an unsigned
format the masked value. -/
def Obligations.FrcmpLayout : Prop :=
  ∀ (s : State) (u : Code), s.Configured →
    ∃ (v : Word64) (N y : Nat), s.Answers (.frcmp u) v ∧ N = s.arch.desc.tb.toNat ∧
      y = u.toNat % 2 ^ N ∧
      v.toNat = if s.arch.desc.sg then
        (if 2 ^ (N - 1) ≤ y then y - 2 ^ (N - 1) else 2 ^ N - 1 - y) else y

/-- R125, bijection: FRCMP undoes TOCMP and TOCMP undoes FRCMP, up to the bits above the width. -/
def Obligations.TransformIsBijection : Prop :=
  ∀ (s : State) (x : Code), s.Configured →
    (∃ u : Word64, s.Answers (.tocmp x) u ∧
      s.Answers (.frcmp (u.setWidth 16)) (zext64 (x &&& codeMask s.arch.desc))) ∧
    (∃ y : Word64, s.Answers (.frcmp x) y ∧
      s.Answers (.tocmp (y.setWidth 16)) (zext64 (x &&& codeMask s.arch.desc)))

/-- R124: ABS answers NOT_CONFIGURED without a descriptor; with one it answers OK with the container
whose sign bit, bit N-1 of a signed format, is cleared and whose other bits are those of the
operand, the bits above the width among them. -/
def Obligations.AbsClearsSignBitOnly : Prop :=
  ∀ (s : State) (x : Code),
    (s.arch.cfgValid = false → exec (.abs x) s = .next (s.push ⟨.notConfigured, 0#64⟩)) ∧
    (s.Configured →
      ∃ v : Word64, s.Answers (.abs x) v ∧
        ∀ k : Nat, v.getLsbD k =
          (x.getLsbD k && !(s.arch.desc.sg && decide (k + 1 = s.arch.desc.tb.toNat))))

/-! ### Delta codec -/

/-- R130: DENC answers NOT_CONFIGURED without a descriptor; with one it answers OK with the
sign-extended difference of the two comparable values, within plus and minus code_mask. The bound is
the spec's inference in R130: "[derived: both comparable values lie in `[0, code_mask]`]". -/
def Obligations.DencIsExactDifference : Prop :=
  ∀ (s : State) (last x : Code),
    (s.arch.cfgValid = false → exec (.denc last x) s = .next (s.push ⟨.notConfigured, 0#64⟩)) ∧
    (s.Configured →
      ∃ v u u' : Word64, s.Answers (.denc last x) v ∧ s.Answers (.tocmp last) u ∧
        s.Answers (.tocmp x) u' ∧ v.toInt = (u'.toNat : Int) - (u.toNat : Int) ∧
        -(2 ^ s.arch.desc.tb.toNat - 1) ≤ v.toInt ∧ v.toInt ≤ 2 ^ s.arch.desc.tb.toNat - 1)

/-- R132: DDEC with delta 0 answers OK with the container `last` itself, all 16 bits. -/
def Obligations.DdecZeroReturnsLast : Prop :=
  ∀ (s : State) (last : Code), s.arch.cfgValid = true → s.Answers (.ddec last 0) (zext64 last)

/-- R131, R133: DDEC with another delta answers OK with the code, bits above the width 0, whose
comparable value is that of `last` plus the delta, clamped to 0 and to code_mask. -/
def Obligations.DdecSaturates : Prop :=
  ∀ (s : State) (last : Code) (delta : Int), s.Configured → delta ≠ 0 →
    ∃ v u u' : Word64, s.Answers (.ddec last delta) v ∧ s.Answers (.tocmp last) u ∧
      s.Answers (.tocmp (v.setWidth 16)) u' ∧ v.toNat ≤ 2 ^ s.arch.desc.tb.toNat - 1 ∧
      (u'.toNat : Int) = min (max (u.toNat + delta) 0) (2 ^ s.arch.desc.tb.toNat - 1)

/-- R135, round trip: DDEC of the delta that DENC answers gives back the masked code when the delta
is not 0, and `last` when it is 0; in both cases it agrees with `x` below the width and decodes to
the same word, bit for bit. -/
def Obligations.DeltaRoundTrip : Prop :=
  ∀ (s : State) (last x : Code), s.Configured →
    ∃ v r w : Word64, s.Answers (.denc last x) v ∧ s.Answers (.ddec last (sint64 v)) r ∧
      (v ≠ 0#64 → r = zext64 (x &&& codeMask s.arch.desc)) ∧
      (v = 0#64 → r = zext64 last) ∧
      r.setWidth 16 &&& codeMask s.arch.desc = x &&& codeMask s.arch.desc ∧
      s.Answers (.dec (r.setWidth 16)) w ∧ s.Answers (.dec x) w

/-- R135, last bullet: for a fixed `last`, the comparable value of what DDEC answers does not
decrease as the delta grows. -/
def Obligations.DdecIsMonotone : Prop :=
  ∀ (d : Desc) (last : Code) (k k' : Int), Desc.Legal d → k ≤ k' →
    (toCmp d (applyDelta d last k)).toNat ≤ (toCmp d (applyDelta d last k')).toNat
end

