-- ==== Sys2Proof/Laws/Binary64.lean ====
section
/-! SUPPORT. What the rounding functions of Machine/Binary64.lean do, said once each. -/

namespace Sys2Proof.Machine

theorem intPow_eq_zpow (b : Nat) (k : Int) : intPow b k = (b : ℚ) ^ k := by
  unfold intPow
  split
  · next h =>
    obtain ⟨n, rfl⟩ := Int.eq_ofNat_of_zero_le h
    simp
  · next h =>
    obtain ⟨n, hn⟩ := Int.eq_ofNat_of_zero_le (show (0 : Int) ≤ -k by omega)
    obtain rfl : k = -(n : Int) := by omega
    simp

theorem intPow_pos {b : Nat} (hb : 0 < b) (k : Int) : 0 < intPow b k := by
  rw [intPow_eq_zpow]
  exact zpow_pos (by exact_mod_cast hb) k

/-- The rounded integer is within one half. -/
theorem abs_roundEven_sub_le (q : ℚ) : |(roundEven q : ℚ) - q| ≤ 1 / 2 := by
  have h1 := Int.floor_le q
  have h2 := Int.lt_floor_add_one q
  rw [abs_le]
  unfold roundEven
  simp only
  split_ifs <;> push_cast <;> constructor <;> linarith

/-- `rha` is within one half too. -/
theorem abs_rha_sub_le (q : ℚ) : |(rha q : ℚ) - q| ≤ 1 / 2 := by
  unfold rha
  rw [abs_le]
  split_ifs
  · have h1 := Int.floor_le (q + 1 / 2)
    have h2 := Int.lt_floor_add_one (q + 1 / 2)
    constructor <;> linarith
  · have h1 := Int.floor_le (-q + 1 / 2)
    have h2 := Int.lt_floor_add_one (-q + 1 / 2)
    push_cast
    constructor <;> linarith

/-- `binade q` is the exponent of the power of two at or below a positive rational. -/
theorem binade_spec {q : ℚ} (hq : 0 < q) :
    (2 : ℚ) ^ binade q ≤ q ∧ q < (2 : ℚ) ^ (binade q + 1) := by
  have h0 : q.num.natAbs ≠ 0 := by
    have := Rat.num_pos.mpr hq
    omega
  have hd : q.den ≠ 0 := q.den_nz
  have hqe : q = (q.num.natAbs : ℚ) / q.den := by
    have h3 : ((q.num.natAbs : ℤ) : ℚ) = (q.num : ℚ) := by
      rw [Int.natAbs_of_nonneg (Rat.num_pos.mpr hq).le]
    calc q = (q.num : ℚ) / q.den := (Rat.num_div_den q).symm
      _ = ((q.num.natAbs : ℤ) : ℚ) / q.den := by rw [h3]
      _ = (q.num.natAbs : ℚ) / q.den := by rw [Int.cast_natCast]
  have hdp : (0 : ℚ) < q.den := by exact_mod_cast Nat.pos_of_ne_zero hd
  have n1 : (2 : ℚ) ^ (Nat.log2 q.num.natAbs) ≤ q.num.natAbs := by
    exact_mod_cast Nat.log2_self_le h0
  have n2 : (q.num.natAbs : ℚ) < 2 ^ (Nat.log2 q.num.natAbs + 1) := by
    exact_mod_cast Nat.lt_log2_self
  have d1 : (2 : ℚ) ^ (Nat.log2 q.den) ≤ q.den := by exact_mod_cast Nat.log2_self_le hd
  have d2 : (q.den : ℚ) < 2 ^ (Nat.log2 q.den + 1) := by exact_mod_cast Nat.lt_log2_self
  have hlo : (2 : ℚ) ^ ((Nat.log2 q.num.natAbs : Int) - Nat.log2 q.den - 1) ≤ q := by
    refine le_of_le_of_eq ?_ hqe.symm
    rw [le_div_iff₀ hdp, sub_sub, zpow_sub₀ (by norm_num), ← Nat.cast_succ, zpow_natCast,
      zpow_natCast, div_mul_eq_mul_div, div_le_iff₀ (by positivity)]
    exact mul_le_mul n1 d2.le hdp.le (by positivity)
  have hhi : q < (2 : ℚ) ^ ((Nat.log2 q.num.natAbs : Int) - Nat.log2 q.den + 1) := by
    refine lt_of_eq_of_lt hqe ?_
    rw [div_lt_iff₀ hdp, sub_add_eq_add_sub, zpow_sub₀ (by norm_num), ← Nat.cast_succ,
      zpow_natCast, zpow_natCast, div_mul_eq_mul_div, lt_div_iff₀ (by positivity)]
    exact mul_lt_mul n2 d1 (by positivity) (by positivity)
  unfold binade
  simp only [intPow_eq_zpow, Nat.cast_ofNat]
  split_ifs with h
  · exact ⟨h, hhi⟩
  · refine ⟨hlo, ?_⟩
    rw [sub_add_cancel]
    exact lt_of_not_ge h

/-- Rounding to an integer is odd: the rule for ties is the same for both signs. -/
theorem roundEven_neg (q : ℚ) : roundEven (-q) = -roundEven q := by
  have h1 := Int.floor_le q
  have h2 := Int.lt_floor_add_one q
  rcases eq_or_lt_of_le h1 with h | h
  · have hf : ⌊-q⌋ = -⌊q⌋ := by rw [← h, ← Int.cast_neg, Int.floor_intCast, Int.floor_intCast]
    unfold roundEven
    simp only [hf]
    push_cast
    rw [if_pos (by linarith), if_pos (by linarith)]
  · have hf : ⌊-q⌋ = -⌊q⌋ - 1 := by
      rw [Int.floor_eq_iff]; push_cast; constructor <;> linarith
    unfold roundEven
    simp only [hf]
    push_cast
    split_ifs <;> first | omega | (exfalso; linarith)

/-- Rounding to binary64 is odd. -/
theorem rne64_neg (q : ℚ) : rne64 (-q) = -rne64 q := by
  unfold rne64
  simp only [neg_eq_zero, abs_neg, neg_div, roundEven_neg]
  split_ifs <;> simp

end Sys2Proof.Machine
end

