-- ==== Sys2Proof/Laws/Derived.lean ====
section
/-! SUPPORT. The small lemmas of the derived constants (10_state.md rule R26), of the exponent search
(41_scalar_codec.md rule R95) and of packing (R97), for a legal descriptor. -/

namespace Sys2Proof.Machine

theorem Desc.Legal.fields_add {d : Desc} (h : Desc.Legal d) :
    mantissaBits d + d.xb.toNat + d.sg.toNat = d.tb.toNat := by
  obtain ⟨_, _, _, _, _, _, h⟩ := h
  unfold mantissaBits
  omega

theorem Desc.Legal.mantissaBits_pos {d : Desc} (h : Desc.Legal d) : 1 ≤ mantissaBits d := by
  obtain ⟨_, _, _, _, _, _, h⟩ := h
  unfold mantissaBits
  omega

theorem Desc.Legal.tb_le {d : Desc} (h : Desc.Legal d) : d.tb.toNat ≤ 16 := h.2.1

theorem two_pow_tb_le {d : Desc} (h : Desc.Legal d) : 2 ^ d.tb.toNat ≤ 65536 :=
  Nat.pow_le_pow_right (n := 2) (by omega) h.tb_le

theorem codeMask_toNat {d : Desc} (h : Desc.Legal d) :
    (codeMask d).toNat = 2 ^ d.tb.toNat - 1 := by
  have := two_pow_tb_le h
  have := Nat.two_pow_pos d.tb.toNat
  rw [codeMask, BitVec.toNat_ofNat, Nat.mod_eq_of_lt (by omega)]

theorem signMask_toNat {d : Desc} (h : Desc.Legal d) :
    (signMask d).toNat = if d.sg then 2 ^ (d.tb.toNat - 1) else 0 := by
  unfold signMask
  split
  · have hlt : 2 ^ (d.tb.toNat - 1) < 65536 :=
      Nat.pow_lt_pow_right (a := 2) (by omega) (by have := h.tb_le; omega : d.tb.toNat - 1 < 16)
    rw [BitVec.toNat_shiftLeft, BitVec.toNat_ofNat, Nat.one_mod_two_pow_eq_one.mpr (by omega),
      Nat.one_shiftLeft, Nat.mod_eq_of_lt hlt]
  · rfl

theorem codeMask_and_toNat {d : Desc} (h : Desc.Legal d) (x : Code) :
    (x &&& codeMask d).toNat = x.toNat % 2 ^ d.tb.toNat := by
  rw [BitVec.toNat_and, codeMask_toNat h, Nat.and_two_pow_sub_one_eq_mod]

theorem packFields_toNat {d : Desc} (h : Desc.Legal d) {i m : Nat} (hi : i < 2 ^ d.xb.toNat)
    (hm : m < 2 ^ mantissaBits d) :
    (packFields d i m).toNat = i * 2 ^ mantissaBits d + m := by
  have hN := two_pow_tb_le h
  have hsum := h.fields_add
  have hle : 2 ^ d.xb.toNat * 2 ^ mantissaBits d ≤ 2 ^ d.tb.toNat := by
    rw [← Nat.pow_add]
    exact Nat.pow_le_pow_right (by omega) (by omega)
  have hpos := Nat.two_pow_pos (mantissaBits d)
  have hX := Nat.two_pow_pos d.xb.toNat
  have hib : (i + 1) * 2 ^ mantissaBits d ≤ 2 ^ d.xb.toNat * 2 ^ mantissaBits d :=
    Nat.mul_le_mul_right _ hi
  rw [Nat.succ_mul] at hib
  have hi' : i < 65536 := by
    have : 2 ^ d.xb.toNat * 1 ≤ 2 ^ d.xb.toNat * 2 ^ mantissaBits d := Nat.mul_le_mul_left _ hpos
    omega
  have e1 : (BitVec.ofNat 16 i <<< mantissaBits d).toNat = i <<< mantissaBits d := by
    rw [BitVec.toNat_shiftLeft, BitVec.toNat_ofNat, Nat.mod_eq_of_lt hi', Nat.mod_eq_of_lt]
    rw [Nat.shiftLeft_eq]
    omega
  have e2 : (BitVec.ofNat 16 m).toNat = m := by
    rw [BitVec.toNat_ofNat, Nat.mod_eq_of_lt (by omega)]
  rw [packFields, BitVec.toNat_or, e1, e2, Nat.shiftLeft_eq, Nat.mul_comm,
    Nat.two_pow_add_eq_or_of_lt hm]

/-- The scan stops at the largest index whose test passes, or at 0. -/
theorem scanDown_spec (test : Nat → Bool) (n : Nat) :
    scanDown test n ≤ n ∧ (0 < scanDown test n → test (scanDown test n - 1) = true) ∧
      ∀ j, scanDown test n < j → j ≤ n → test (j - 1) = false := by
  induction n with
  | zero => exact ⟨by simp [scanDown], by simp [scanDown], fun j h1 h2 => by omega⟩
  | succ n ih =>
    unfold scanDown
    split
    · next h => exact ⟨le_refl _, fun _ => by simpa using h, fun j h1 h2 => by omega⟩
    · next h =>
      refine ⟨by omega, ih.2.1, fun j h1 h2 => ?_⟩
      rcases Nat.lt_or_ge n j with hj | hj
      · obtain rfl : j = n + 1 := by omega
        simpa using h
      · exact ih.2.2 j h1 hj

end Sys2Proof.Machine
end

