-- ==== Sys2Proof/Laws/State.lean ====
section
/-! SUPPORT. One lemma per field per update of the state, each true by `rfl`, so that no proof
unfolds a record update. -/

namespace Sys2Proof.Machine

@[simp] theorem State.push_arch (s : State) (r : Response) : (s.push r).arch = s.arch := rfl

@[simp] theorem State.push_outstanding (s : State) (r : Response) :
    (s.push r).outstanding =
      s.outstanding ++ [⟨r, s.latencies.headD 0⟩] := rfl

@[simp] theorem State.push_delivered (s : State) (r : Response) :
    (s.push r).delivered =
      s.delivered := rfl

@[simp] theorem State.push_inputs (s : State) (r : Response) : (s.push r).inputs = s.inputs := rfl

@[simp] theorem State.push_latencies (s : State) (r : Response) :
    (s.push r).latencies =
      s.latencies.tail := rfl

@[simp] theorem State.push_arith (s : State) (r : Response) : (s.push r).arith = s.arith := rfl

@[simp] theorem State.push_depthPred (s : State) (r : Response) :
    (s.push r).depthPred =
      s.depthPred := rfl

@[simp] theorem State.withArch_arch (s : State) (x : Arch) : (s.withArch x).arch = x := rfl

@[simp] theorem State.withArch_outstanding (s : State) (x : Arch) :
    (s.withArch x).outstanding =
      s.outstanding := rfl

@[simp] theorem State.withArch_delivered (s : State) (x : Arch) :
    (s.withArch x).delivered =
      s.delivered := rfl

@[simp] theorem State.withArch_inputs (s : State) (x : Arch) :
    (s.withArch x).inputs =
      s.inputs := rfl

@[simp] theorem State.withArch_latencies (s : State) (x : Arch) :
    (s.withArch x).latencies =
      s.latencies := rfl

@[simp] theorem State.withArch_arith (s : State) (x : Arch) : (s.withArch x).arith = s.arith := rfl

@[simp] theorem State.withArch_depthPred (s : State) (x : Arch) :
    (s.withArch x).depthPred =
      s.depthPred := rfl

@[simp] theorem State.settle_arch (s : State) : s.settle.arch = s.arch := rfl

@[simp] theorem State.settle_outstanding (s : State) :
    s.settle.outstanding =
      tick (if s.transfers then s.outstanding.tail else s.outstanding) := rfl

@[simp] theorem State.settle_delivered (s : State) :
    s.settle.delivered =
      (if s.transfers then s.delivered ++ s.offered.toList else s.delivered) := rfl

@[simp] theorem State.settle_inputs (s : State) : s.settle.inputs = s.inputs.tail := rfl

@[simp] theorem State.settle_latencies (s : State) : s.settle.latencies = s.latencies := rfl

@[simp] theorem State.settle_arith (s : State) : s.settle.arith = s.arith := rfl

@[simp] theorem State.settle_depthPred (s : State) : s.settle.depthPred = s.depthPred := rfl

@[simp] theorem State.resetEdge_arch (s : State) : s.resetEdge.arch = Arch.reset := rfl

@[simp] theorem State.resetEdge_outstanding (s : State) : s.resetEdge.outstanding = [] := rfl

@[simp] theorem State.resetEdge_delivered (s : State) : s.resetEdge.delivered = [] := rfl

@[simp] theorem State.resetEdge_inputs (s : State) : s.resetEdge.inputs = s.inputs.tail := rfl

@[simp] theorem State.resetEdge_latencies (s : State) : s.resetEdge.latencies = s.latencies := rfl

@[simp] theorem State.resetEdge_arith (s : State) : s.resetEdge.arith = s.arith := rfl

@[simp] theorem State.resetEdge_depthPred (s : State) : s.resetEdge.depthPred = s.depthPred := rfl

@[simp] theorem State.makeRoom_arch (s : State) : s.makeRoom.arch = s.arch := rfl

@[simp] theorem State.makeRoom_outstanding (s : State) :
    s.makeRoom.outstanding =
      s.outstanding.drop (s.outstanding.length - s.depthPred) := rfl

@[simp] theorem State.makeRoom_delivered (s : State) :
    s.makeRoom.delivered =
      s.delivered ++ (s.outstanding.take (s.outstanding.length - s.depthPred)).map Pending.rsp := rfl

@[simp] theorem State.makeRoom_inputs (s : State) : s.makeRoom.inputs = s.inputs := rfl

@[simp] theorem State.makeRoom_latencies (s : State) : s.makeRoom.latencies = s.latencies := rfl

@[simp] theorem State.makeRoom_arith (s : State) : s.makeRoom.arith = s.arith := rfl

@[simp] theorem State.makeRoom_depthPred (s : State) : s.makeRoom.depthPred = s.depthPred := rfl

@[simp] theorem State.offer_arch (s : State) (c : Command) : (s.offer c).arch = s.arch := rfl

@[simp] theorem State.offer_outstanding (s : State) (c : Command) :
    (s.offer c).outstanding =
      s.outstanding := rfl

@[simp] theorem State.offer_delivered (s : State) (c : Command) :
    (s.offer c).delivered =
      s.delivered := rfl

@[simp] theorem State.offer_inputs (s : State) (c : Command) :
    (s.offer c).inputs =
      { s.edge with rst := false, reqValid := true, req := c } :: s.inputs.tail := rfl

@[simp] theorem State.offer_latencies (s : State) (c : Command) :
    (s.offer c).latencies =
      s.latencies := rfl

@[simp] theorem State.offer_arith (s : State) (c : Command) : (s.offer c).arith = s.arith := rfl

@[simp] theorem State.offer_depthPred (s : State) (c : Command) :
    (s.offer c).depthPred =
      s.depthPred := rfl

@[simp] theorem unitAt_arch (ar : Arith) (x : Arch) : (unitAt ar x).arch = x := rfl

@[simp] theorem unitAt_outstanding (ar : Arith) (x : Arch) : (unitAt ar x).outstanding = [] := rfl

@[simp] theorem unitAt_delivered (ar : Arith) (x : Arch) : (unitAt ar x).delivered = [] := rfl

@[simp] theorem unitAt_inputs (ar : Arith) (x : Arch) : (unitAt ar x).inputs = [] := rfl

@[simp] theorem unitAt_latencies (ar : Arith) (x : Arch) : (unitAt ar x).latencies = [] := rfl

@[simp] theorem unitAt_arith (ar : Arith) (x : Arch) : (unitAt ar x).arith = ar := rfl

@[simp] theorem unitAt_depthPred (ar : Arith) (x : Arch) : (unitAt ar x).depthPred = 0 := rfl

end Sys2Proof.Machine
end

