-- ==== Sys2Proof/Laws/Ops.lean ====
section
/-! SUPPORT. What each shared operation can do, said once. -/

namespace Sys2Proof.Machine

/-- A response ends the command: the next state has it at the end of the commands in flight. -/
theorem respond_eq (s : State) (st : Status) (v : Word64) :
    s.respond st v = .next (s.push ⟨st, v⟩) := rfl

/-- An error is a response and nothing else. -/
theorem raise_eq (s : State) (st : Status) (v : Word64) :
    s.raise st v = .next (s.push ⟨st, v⟩) := rfl

theorem illegalOpcode_eq (s : State) :
    s.illegalOpcode = .next (s.push ⟨.illegalOp, 0#64⟩) := rfl

/-- The response of a command that needs a descriptor. -/
def configuredResponse (ar : Arith) (x : Arch) (result : Arith → Desc → Word64) : Response :=
  if x.cfgValid then ⟨.ok, result ar x.desc⟩ else ⟨.notConfigured, 0#64⟩

/-- A command that needs a descriptor pushes its one response and writes no state. -/
theorem whenConfigured_eq (s : State) (f : Arith → Desc → Word64) :
    s.whenConfigured f = .next (s.push (configuredResponse s.arith s.arch f)) := by
  unfold State.whenConfigured configuredResponse
  split <;> rfl

theorem whenConfigured_of_valid {s : State} (h : s.arch.cfgValid = true)
    (f : Arith → Desc → Word64) :
    s.whenConfigured f = .next (s.push ⟨.ok, f s.arith s.arch.desc⟩) := by
  simp [whenConfigured_eq, configuredResponse, h]

theorem whenConfigured_of_invalid {s : State} (h : s.arch.cfgValid = false)
    (f : Arith → Desc → Word64) :
    s.whenConfigured f = .next (s.push ⟨.notConfigured, 0#64⟩) := by
  simp [whenConfigured_eq, configuredResponse, h]

/-- CFG gives a next state whatever the check says. -/
theorem execCfg_eq (tb base xb : Nat) (mine : Int) (sg : Bool) (s : State) :
    execCfg tb base xb mine sg s =
      .next (if validateDesc (descOf tb base xb mine sg) = 0 then
          (s.withArch (configuredArch (descOf tb base xb mine sg))).push ⟨.ok, 0#64⟩
        else
          (s.withArch (failedArch (validateDesc (descOf tb base xb mine sg)))).push
            ⟨.cfgError, BitVec.ofNat 64 (validateDesc (descOf tb base xb mine sg))⟩) := by
  unfold execCfg
  simp only [State.respond, State.raise]
  split <;> rfl

/-- Everything a command can do: it gives a next state with a new architectural state, which
depends on the old one alone, and one response more in flight. -/
theorem exec_shape (i : Instr) (s : State) :
    ∃ r, exec i s = .next ((s.withArch (unitStep s.arith s.arch i).1).push r) ∧
      (unitStep s.arith s.arch i).2 = r := by
  cases i <;>
    first
      | exact ⟨_, rfl, rfl⟩
      | (simp only [exec, unitStep, execMaxv, execMinv, execEnc, execDec, execAbs, execTocmp,
          execFrcmp, execDenc, execDdec, whenConfigured_eq]; exact ⟨_, rfl, rfl⟩)
      | (simp only [exec, unitStep, execCfg_eq]; split <;> exact ⟨_, rfl, rfl⟩)

/-- A command on a machine is the command on the unit by itself (R3), with its response put in
flight. -/
theorem exec_eq_unitStep (i : Instr) (s : State) :
    exec i s = .next ((s.withArch (unitStep s.arith s.arch i).1).push
      (unitStep s.arith s.arch i).2) := by
  obtain ⟨r, h, hr⟩ := exec_shape i s
  rw [h, hr]

/-- The three things one edge can do. -/
theorem step_cases {s t : State} (h : step s = .next t) :
    (s.edge.rst = true ∧ t = s.resetEdge) ∨
    (s.edge.rst = false ∧ s.accepts = true ∧ exec (decode s.edge.req) s.settle = .next t) ∨
    (s.edge.rst = false ∧ s.accepts = false ∧ t = s.settle) := by
  unfold step at h
  split at h
  · cases h; exact .inl ⟨‹_›, rfl⟩
  · split at h
    · exact .inr (.inl ⟨by simp_all, ‹_›, h⟩)
    · cases h; exact .inr (.inr ⟨by simp_all, by simp_all, rfl⟩)

@[simp] theorem tick_length (ps : List Pending) : (tick ps).length = ps.length := by simp [tick]

@[simp] theorem tick_map_rsp (ps : List Pending) :
    (tick ps).map Pending.rsp = ps.map Pending.rsp := by
  simp [tick]

/-- The response on offer is that of the oldest command in flight. -/
theorem offered_eq_some {s : State} {r : Response} (h : s.offered = some r) :
    ∃ ps, s.outstanding = ⟨r, 0⟩ :: ps := by
  unfold State.offered at h
  split at h
  · cases h
  · next p ps hp =>
    split at h
    · next hw => cases h; exact ⟨ps, by rw [hp, ← hw]⟩
    · cases h

/-- An edge without reset moves no response out of order: what is delivered and what is in flight
stay the same sequence. -/
theorem settle_responses (s : State) : s.settle.responses = s.responses := by
  simp only [State.responses, State.settle_delivered, State.settle_outstanding, tick_map_rsp]
  split
  · next h =>
    have hv : s.offered.isSome = true := by
      simp only [State.transfers, State.rspValid, Bool.and_eq_true] at h
      exact h.1.2
    obtain ⟨r, hr⟩ := Option.isSome_iff_exists.mp hv
    obtain ⟨ps, hps⟩ := offered_eq_some hr
    simp [hr, hps]
  · rfl

/-- The command placed at the port runs at the very next step, whatever the state. -/
theorem step_withFetchWord (s : State) (nbits w : Nat) :
    step (s.withFetchWord nbits w) =
      exec (decode (Command.ofNat (w % 2 ^ nbits))) (s.withFetchWord nbits w).settle := by
  have hr : (s.withFetchWord nbits w).edge.rst = false := rfl
  have ha : (s.withFetchWord nbits w).accepts = true := by
    simp [State.accepts, State.reqReady, State.withFetchWord, State.edge, State.depth]
    omega
  simp only [step, hr, ha]
  rfl

theorem push_responses (s : State) (r : Response) :
    (s.push r).responses = s.responses ++ [r] := by
  simp [State.responses]

end Sys2Proof.Machine
end

