-- ==== Sys2Proof/Laws/PerInstr.lean ====
section
/-! SUPPORT. Statements made for every command, with one lemma for each constructor of `Instr`. -/

/-- The opcode alone selects the command (30_encoding.md rules R53 and R61): whatever the operands,
the opcode of `i`'s encoding decodes to a command with `i`'s opcode. -/
def Sys2Proof.Laws.OpcodeSelects.Statement (i : Sys2Proof.Instr) : Prop :=
  ∀ a b : Sys2Proof.Word64,
    (Sys2Proof.decode ⟨(Sys2Proof.encode i).op, a, b⟩).opcode = i.opcode

namespace Sys2Proof.Laws

theorem OpcodeSelects.reserved0 : OpcodeSelects.Statement .reserved0 := fun _ _ => rfl

theorem OpcodeSelects.cfg (tb base xb : Nat) (mine : Int) (sg : Bool) :
    OpcodeSelects.Statement (.cfg tb base xb mine sg) := fun _ _ => rfl

theorem OpcodeSelects.rdcfg : OpcodeSelects.Statement .rdcfg := fun _ _ => rfl

theorem OpcodeSelects.maxv : OpcodeSelects.Statement .maxv := fun _ _ => rfl

theorem OpcodeSelects.minv : OpcodeSelects.Statement .minv := fun _ _ => rfl

theorem OpcodeSelects.enc (w : Word64) : OpcodeSelects.Statement (.enc w) := fun _ _ => rfl

theorem OpcodeSelects.dec (x : Code) : OpcodeSelects.Statement (.dec x) := fun _ _ => rfl

theorem OpcodeSelects.abs (x : Code) : OpcodeSelects.Statement (.abs x) := fun _ _ => rfl

theorem OpcodeSelects.tocmp (x : Code) : OpcodeSelects.Statement (.tocmp x) := fun _ _ => rfl

theorem OpcodeSelects.frcmp (u : Code) : OpcodeSelects.Statement (.frcmp u) := fun _ _ => rfl

theorem OpcodeSelects.denc (last x : Code) : OpcodeSelects.Statement (.denc last x) :=
  fun _ _ => rfl

theorem OpcodeSelects.ddec (last : Code) (delta : Int) :
    OpcodeSelects.Statement (.ddec last delta) := fun _ _ => rfl

theorem OpcodeSelects.reservedC : OpcodeSelects.Statement .reservedC := fun _ _ => rfl

theorem OpcodeSelects.reservedD : OpcodeSelects.Statement .reservedD := fun _ _ => rfl

theorem OpcodeSelects.reservedE : OpcodeSelects.Statement .reservedE := fun _ _ => rfl

theorem OpcodeSelects.reservedF : OpcodeSelects.Statement .reservedF := fun _ _ => rfl

end Sys2Proof.Laws
end

