-- ==== Sys2Proof/Machine/Assembler.lean ====
section
/-! DEFINITION. What the assembler's operands and pseudo-instructions stand for (30_encoding.md rules
R63 and R64). The layout of the operands on the buses is `encode` (Decode.lean). -/

namespace Sys2Proof.Machine

/-- The operand `nan` (R63). -/
def nanLiteral : Word64 := 0x7FF8000000000000#64

/-- The operands `inf` and `-inf` (R63, R10). -/
def infLiteral (negative : Bool) : Word64 := BitVec.ofBool negative ++ 0x7FF#11 ++ 0#52

/-- A decimal literal, its sign and its magnitude: the nearest binary64 value, ties to even (R63). A
literal that rounds past the largest finite value (such as 1e400) is an infinity: PRESUMED (log entry
14), unsafe. R63 says only "nearest" there; IEEE 754 roundTiesToEven gives the infinity. -/
def realLiteral (negative : Bool) (q : ℚ) : Word64 :=
  if 2 ^ 1024 ≤ rne64 q then infLiteral negative else b64 (rne64 q) negative

/-- The preset `CFG.B2X4 tb, sg` (R64). -/
def cfgB2X4 (tb : Nat) (sg : Bool) : Instr := .cfg tb 2 4 (-8) sg

/-- The preset `CFG.B3X3 tb, sg` (R64). -/
def cfgB3X3 (tb : Nat) (sg : Bool) : Instr := .cfg tb 3 3 (-6) sg

/-- The preset `CFG.B3X2 tb, sg` (R64). -/
def cfgB3X2 (tb : Nat) (sg : Bool) : Instr := .cfg tb 3 2 (-3) sg

end Sys2Proof.Machine
end

