-- ==== Sys2Proof/Tests/Slice0.lean ====
section
/-! SUPPORT. Tests. Expected values come from the spec: 95_test_vectors.md, the worked examples of the
rules, and the encoding tables of 30_encoding.md. -/

namespace Sys2Proof.Tests

open Sys2Proof Sys2Proof.Machine

/-! ### The formats of 95_test_vectors.md §2.1 -/

/-- P12: `CFG 12, 2, 4, -8, 1`. -/
def archP12 : Arch := ⟨⟨12#8, 2#8, 4#8, 0xF8#8, true⟩, true, 0#3⟩

/-- P8B3: `CFG 8, 3, 3, -6, 1`. -/
def archP8B3 : Arch := ⟨⟨8#8, 3#8, 3#8, 0xFA#8, true⟩, true, 0#3⟩

/-- U16B3: `CFG 16, 3, 2, -3, 0`. -/
def archU16B3 : Arch := ⟨⟨16#8, 3#8, 2#8, 0xFD#8, false⟩, true, 0#3⟩

/-- U6: `CFG 6, 2, 2, -2, 0`. -/
def archU6 : Arch := ⟨⟨6#8, 2#8, 2#8, 0xFE#8, false⟩, true, 0#3⟩

/-- P12 under EXACT, nothing in flight. -/
def p12 : State := unitAt .exact archP12

/-- U6 under BINARY64, nothing in flight. -/
def u6 : State := unitAt .binary64 archU6

/-! ### WellFormed: one ill-formed term for each check -/

theorem test_wellFormed_refuses_tb : (Instr.cfg 256 2 4 (-8) true).wellFormed = false := by decide
theorem test_wellFormed_refuses_base : (Instr.cfg 12 256 4 (-8) true).wellFormed = false := by decide
theorem test_wellFormed_refuses_xb : (Instr.cfg 12 2 256 (-8) true).wellFormed = false := by decide
theorem test_wellFormed_refuses_low_mine :
    (Instr.cfg 12 2 4 (-129) true).wellFormed = false := by decide
theorem test_wellFormed_refuses_high_mine :
    (Instr.cfg 12 2 4 128 true).wellFormed = false := by decide
theorem test_wellFormed_refuses_low_delta :
    (Instr.ddec 0#16 (-9223372036854775809)).wellFormed = false := by decide
theorem test_wellFormed_refuses_high_delta :
    (Instr.ddec 0#16 9223372036854775808).wellFormed = false := by decide

/-! ### Decoding: one word for each constructor, from R53, R55, R56 and 95_test_vectors.md §7 -/

theorem test_decode_reserved0 : decode ⟨0x0#4, 0#64, 0#64⟩ = .reserved0 := by decide
theorem test_decode_cfg :
    decode ⟨0x1#4, 0x00000001FA030308#64, 0#64⟩ = .cfg 8 3 3 (-6) true := by decide
theorem test_decode_cfg_ignores_high_bits :
    decode ⟨0x1#4, 0xFFFFFFFFF804020C#64, 7#64⟩ = .cfg 12 2 4 (-8) true := by decide
theorem test_decode_rdcfg : decode ⟨0x2#4, 5#64, 6#64⟩ = .rdcfg := by decide
theorem test_decode_maxv : decode ⟨0x3#4, 0#64, 0#64⟩ = .maxv := by decide
theorem test_decode_minv : decode ⟨0x4#4, 0#64, 0#64⟩ = .minv := by decide
theorem test_decode_enc :
    decode ⟨0x5#4, 0xFFF0000000000000#64, 0#64⟩ = .enc 0xFFF0000000000000#64 := by decide
theorem test_decode_dec : decode ⟨0x6#4, 0xFFFFFFFFFFFFF448#64, 0#64⟩ = .dec 0xF448#16 := by decide
theorem test_decode_abs : decode ⟨0x7#4, 0x000000000000FFF1#64, 0#64⟩ = .abs 0xFFF1#16 := by decide
theorem test_decode_tocmp : decode ⟨0x8#4, 0x800#64, 0#64⟩ = .tocmp 0x800#16 := by decide
theorem test_decode_frcmp : decode ⟨0x9#4, 0x7FF#64, 0#64⟩ = .frcmp 0x7FF#16 := by decide
theorem test_decode_denc :
    decode ⟨0xA#4, 0x1000000000000089F#64, 0xFFFF00E3#64⟩ = .denc 0x89F#16 0xE3#16 := by decide
theorem test_decode_ddec :
    decode ⟨0xB#4, 0x31#64, 0xFFFFFFFFFFFFFF9C#64⟩ = .ddec 0x31#16 (-100) := by decide
theorem test_decode_reservedC : decode ⟨0xC#4, 5#64, 6#64⟩ = .reservedC := by decide
theorem test_decode_reservedD : decode ⟨0xD#4, 0#64, 0#64⟩ = .reservedD := by decide
theorem test_decode_reservedE : decode ⟨0xE#4, 0#64, 0#64⟩ = .reservedE := by decide
theorem test_decode_reservedF : decode ⟨0xF#4, 0#64, 0#64⟩ = .reservedF := by decide

theorem test_encode_cfg :
    encode (.cfg 12 2 4 (-8) true) = ⟨0x1#4, 0x00000001F804020C#64, 0#64⟩ := by decide
theorem test_encode_ddec :
    encode (.ddec 0xE3#16 (-387)) = ⟨0xB#4, 0xE3#64, 0xFFFFFFFFFFFFFE7D#64⟩ := by decide

theorem test_encode_preset :
    encode (cfgB2X4 12 true) = ⟨0x1#4, 0x00000001F804020C#64, 0#64⟩ := by decide

/-- The literal 1.567 of 95_test_vectors.md E1. -/
theorem test_realLiteral : realLiteral false (1567 / 1000) = 0x3FF9126E978D4FDF#64 := by
  decide +kernel

/-- 1e400 and -1e400, past the finite range (log entry 14). -/
theorem test_realLiteral_overflow :
    realLiteral false (10 ^ 400) = 0x7FF0000000000000#64 ∧
      realLiteral true (10 ^ 400) = 0xFFF0000000000000#64 := by decide +kernel

theorem test_decodeTableWord : decodeTableWord 8 0xA = some (.denc 0#16 0#16) := by decide

/-! ### One command on a unit: status and data of 95_test_vectors.md, at most two for each command -/

/-- The response of a command on a unit by itself. -/
def answer (ar : Arith) (x : Arch) (i : Instr) : Response := (unitStep ar x i).2

theorem test_reserved0 : unitStep .exact archP12 .reserved0 = (archP12, ⟨.illegalOp, 0#64⟩) := by
  decide
theorem test_reservedC :
    unitStep .exact Arch.reset .reservedC = (Arch.reset, ⟨.illegalOp, 0#64⟩) := by decide
theorem test_reservedD : answer .exact archU6 .reservedD = ⟨.illegalOp, 0#64⟩ := by decide
theorem test_reservedE : answer .exact archU6 .reservedE = ⟨.illegalOp, 0#64⟩ := by decide
theorem test_reservedF : answer .exact archP12 .reservedF = ⟨.illegalOp, 0#64⟩ := by decide

theorem test_cfg_ok :
    unitStep .exact Arch.reset (.cfg 12 2 4 (-8) true) = (archP12, ⟨.ok, 0#64⟩) := by
  decide
/-- Cause 3 comes before cause 4, and a failed CFG clears the descriptor (95 §2.2). -/
theorem test_cfg_error :
    unitStep .exact archP12 (.cfg 3 2 4 (-8) true) =
      (⟨Desc.zero, false, 3#3⟩, ⟨.cfgError, 3#64⟩) := by decide

theorem test_rdcfg : answer .exact archP12 .rdcfg = ⟨.ok, 0x00010701F804020C#64⟩ := by
  decide
theorem test_rdcfg_after_error :
    answer .exact ⟨Desc.zero, false, 5#3⟩ .rdcfg = ⟨.ok, 0x000A000000000000#64⟩ := by
  decide

theorem test_maxv_exact : answer .exact archU16B3 .maxv = ⟨.ok, 0x40089D4762762762#64⟩ := by
  decide +kernel
theorem test_maxv_binary64 : answer .binary64 archU16B3 .maxv = ⟨.ok, 0x40089D4762762761#64⟩ := by
  decide +kernel
theorem test_minv_signed : answer .exact archP12 .minv = ⟨.ok, 0xC06FFFDFDFDFDFE0#64⟩ := by
  decide +kernel
theorem test_minv_unsigned : answer .exact archU6 .minv = ⟨.ok, 0#64⟩ := by decide

/-- 2.0, an exact tie at a bucket boundary (90_conflicts.md C2). -/
theorem test_enc_bucket_edge :
    answer .exact archP12 (.enc 0x4000000000000000#64) = ⟨.ok, 0x480#64⟩ := by decide +kernel
/-- An operand on which the ARITH values differ (95 §3.3: 0x000 under EXACT). -/
theorem test_enc_binary64 :
    answer .binary64 archP12 (.enc 0x3EF0101010101010#64) = ⟨.ok, 0x001#64⟩ := by decide +kernel
theorem test_dec_exact :
    answer .exact archP12 (.dec 0xF448#16) = ⟨.ok, 0x3FF9090909090909#64⟩ := by decide +kernel
theorem test_dec_binary64 :
    answer .binary64 archP8B3 (.dec 0x04#16) = ⟨.ok, 0x3F46816816816815#64⟩ := by decide +kernel
theorem test_abs_keeps_high_bits :
    answer .exact archP12 (.abs 0xFC48#16) = ⟨.ok, 0xF448#64⟩ := by decide
theorem test_abs_unsigned : answer .exact archU6 (.abs 0xFFF1#16) = ⟨.ok, 0xFFF1#64⟩ := by
  decide
theorem test_tocmp_minus_zero : answer .exact archP12 (.tocmp 0x800#16) = ⟨.ok, 0x7FF#64⟩ := by
  decide
theorem test_tocmp_high_bits : answer .exact archP12 (.tocmp 0xF448#16) = ⟨.ok, 0xC48#64⟩ := by
  decide
theorem test_frcmp_lower_half : answer .exact archP12 (.frcmp 0x3B7#16) = ⟨.ok, 0xC48#64⟩ := by
  decide
theorem test_frcmp_high_bits : answer .exact archP12 (.frcmp 0xF800#16) = ⟨.ok, 0#64⟩ := by
  decide
theorem test_denc_across_zero :
    answer .exact archP12 (.denc 0x89F#16 0x0E3#16) = ⟨.ok, 387#64⟩ := by decide
theorem test_denc_negative :
    answer .exact archP12 (.denc 0x448#16 0xC48#16) = ⟨.ok, 0xFFFFFFFFFFFFF76F#64⟩ := by
  decide
theorem test_ddec_zero : answer .exact archP12 (.ddec 0xF448#16 0) = ⟨.ok, 0xF448#64⟩ := by
  decide
theorem test_ddec_saturates_low :
    answer .exact archP12 (.ddec 0x001#16 (-9223372036854775808)) = ⟨.ok, 0xFFF#64⟩ := by
  decide

/-- A command before any CFG (95 §6). -/
theorem test_not_configured :
    unitStep .exact Arch.reset (.dec 0x448#16) = (Arch.reset, ⟨.notConfigured, 0#64⟩) := by
  decide

/-! ### Numbers -/

/-- R29's worked value for b = 2 and M = 7. -/
theorem test_boundary_base2 : boundary archP12.desc = 511 / 256 := by decide +kernel
/-- R29's worked value for b = 3 and M = 4. -/
theorem test_boundary_base3 : boundary archP8B3.desc = 47 / 16 := by decide +kernel
theorem test_roundEven_tie : roundEven (5 / 2) = 2 := by decide +kernel
theorem test_rha_tie : rha (-5 / 2) = -3 := by decide +kernel

/-! ### The ports -/

/-- An edge that offers a command, the host ready for responses or not. -/
def asking (c : Command) (ready : Bool) : EdgeIn := ⟨false, true, c, ready⟩

/-- The triple of `ENC 1.0`. -/
def encOne : Command := ⟨0x5#4, 0x3FF0000000000000#64, 0#64⟩

theorem test_withFetchWord_runs :
    nextState (step (State.reset.withFetchWord 8 0x1)) =
      nextState (exec (.cfg 0 0 0 0 false) (State.reset.withFetchWord 8 0x1).settle) := by
  decide

/-- With DEPTH responses waiting the unit accepts nothing (R165). -/
theorem test_full_unit_stalls :
    ({ p12 with outstanding := [⟨⟨.ok, 1#64⟩, 0⟩], inputs := [asking encOne false] } : State).accepts
      = false := by decide

/-- A response of latency 2 cannot be transferred at the first edge (R167). -/
theorem test_latency_holds_response :
    ({ p12 with outstanding := [⟨⟨.ok, 1#64⟩, 1⟩], inputs := [asking encOne true] } : State).transfers
      = false := by decide

/-! ### Witnesses: states and operands that meet the hypotheses of the statements -/

/-- P12 with one command in flight and another offered, the host taking responses, DEPTH 2. -/
def busy : State :=
  { p12 with
    outstanding := [⟨⟨.ok, 0x448#64⟩, 0⟩]
    inputs := [asking encOne true]
    depthPred := 1 }

theorem witness_StepKeepsInvariant : State.Inv busy ∧ (nextState (step busy)).isSome = true := by
  decide

theorem witness_StepRunsDecodedCommand :
    busy.edge.rst = false ∧ busy.edge.reqValid = true ∧ busy.outstanding.length < busy.depth ∧
      decode busy.edge.req = .enc 0x3FF0000000000000#64 ∧
      (Instr.enc 0x3FF0000000000000#64).wellFormed = true := by decide

theorem witness_ResetEdgeDiscardsEverything :
    ({ busy with inputs := [⟨true, true, encOne, true⟩, asking encOne true] } : State).edge.rst = true ∧
      ({ busy with inputs := [⟨true, true, encOne, true⟩, asking encOne true] } : State).resetEdge.accepts
        = true := by decide

theorem witness_EdgeIsUnitStep_accepts : busy.edge.rst = false ∧ busy.accepts = true := by
  decide

theorem witness_EdgeIsUnitStep_stalls :
    ({ busy with depthPred := 0 } : State).edge.rst = false ∧
      ({ busy with depthPred := 0 } : State).accepts = false := by decide

theorem witness_ResponseHandshake_taken :
    busy.edge.rst = false ∧ (nextState (step busy)).isSome = true ∧
      busy.offered = some ⟨.ok, 0x448#64⟩ ∧ busy.edge.rspReady = true := by decide

theorem witness_ResponseHandshake_held :
    ({ busy with inputs := [] } : State).edge.rst = false ∧
      (nextState (step { busy with inputs := [] })).isSome = true ∧
      ({ busy with inputs := [] } : State).offered = some ⟨.ok, 0x448#64⟩ ∧
      ({ busy with inputs := [] } : State).edge.rspReady = false := by decide

theorem witness_ResponseHandshake_none :
    p12.edge.rst = false ∧ (nextState (step p12)).isSome = true ∧ p12.offered = none := by
  decide

theorem witness_OldestResponseComesDue :
    ({ busy with outstanding := [⟨⟨.ok, 1#64⟩, 2⟩] } : State).outstanding = ⟨⟨.ok, 1#64⟩, 2⟩ :: [] ∧
      ∀ e ∈ busy.inputs.take 2, e.rst = false := by decide

/-- The state after the CFG of P12 was accepted from reset. -/
def afterCfg : State := { p12 with outstanding := [⟨⟨.ok, 0#64⟩, 0⟩] }

theorem witness_ResponsesFoldAcceptedCommands :
    afterCfg.Explained [⟨0x1#4, 0x00000001F804020C#64, 0#64⟩] ∧
      (nextState (step afterCfg)).isSome = true := by decide

theorem witness_DecodeEncodeAgree :
    (Instr.cfg 255 0 255 (-128) false).wellFormed = true ∧
      (Instr.ddec 0xFFFF#16 9223372036854775807).wellFormed = true := by decide

/-- The premises of IgnoredBitsHaveNoEffect about the bits a format reads. -/
abbrev agreeOnReadBits (c c' : Command) : Prop :=
  c.op = c'.op ∧ (c.op = 0x1#4 → c.a.extractLsb' 0 33 = c'.a.extractLsb' 0 33) ∧
    (c.op = 0x5#4 → c.a = c'.a) ∧
    (c.op ∈ [0x6#4, 0x7#4, 0x8#4, 0x9#4, 0xA#4, 0xB#4] →
      c.a.extractLsb' 0 16 = c'.a.extractLsb' 0 16) ∧
    (c.op = 0xA#4 → c.b.extractLsb' 0 16 = c'.b.extractLsb' 0 16) ∧ (c.op = 0xB#4 → c.b = c'.b)

theorem witness_IgnoredBitsHaveNoEffect_cfg :
    agreeOnReadBits ⟨0x1#4, 0xFFFFFFFFF804020C#64, 7#64⟩ ⟨0x1#4, 0x00000001F804020C#64, 0#64⟩ := by
  decide

theorem witness_IgnoredBitsHaveNoEffect_enc :
    agreeOnReadBits ⟨0x5#4, 0x3FF0000000000000#64, 7#64⟩ encOne := by decide

theorem witness_IgnoredBitsHaveNoEffect_denc :
    agreeOnReadBits ⟨0xA#4, 0xFFFFFFFFFFFF089F#64, 0xFFFF00000000FFFF#64⟩
      ⟨0xA#4, 0x000000000000089F#64, 0x000000000000FFFF#64⟩ := by decide

theorem witness_IgnoredBitsHaveNoEffect_ddec :
    agreeOnReadBits ⟨0xB#4, 0x0000000000010031#64, 0xFFFFFFFFFFFFFF9C#64⟩
      ⟨0xB#4, 0x0000000000000031#64, 0xFFFFFFFFFFFFFF9C#64⟩ := by decide

theorem witness_NeedsDescriptor :
    State.reset.arch.cfgValid = false ∧ (Instr.cfg 17 2 4 (-8) true).isCfg = true ∧
      (unitStep .exact archP12 (.cfg 17 2 4 (-8) true)).2.status = .cfgError := by decide

theorem witness_OnlyCfgWritesState :
    ({ State.reset with inputs := [asking ⟨0x1#4, 0x00000001F804020C#64, 0#64⟩ false] } : State).accepts
      = true ∧ Instr.rdcfg.isCfg = false := by decide

theorem witness_CfgSucceeds_widest :
    (Instr.cfg 16 3 4 (-128) true).wellFormed = true ∧ 16 ≤ 16 ∧ (3 = 2 ∨ 3 = 3) ∧
      1 ≤ ((16 : Nat) : Int) - ((4 : Nat) : Int) - true.toNat ∧ 4 ≤ 4 ∧ (-128 : Int) < 0 := by decide

theorem witness_CfgSucceeds_narrowest :
    (Instr.cfg 1 2 0 (-1) false).wellFormed = true ∧ 1 ≤ 16 ∧ (2 = 2 ∨ 2 = 3) ∧
      1 ≤ ((1 : Nat) : Int) - ((0 : Nat) : Int) - false.toNat ∧ 0 ≤ 4 ∧ (-1 : Int) < 0 := by decide

theorem witness_CfgReportsFirstFailingCheck_1 :
    (Instr.cfg 17 5 4 (-8) true).wellFormed = true ∧ 16 < 17 := by decide
theorem witness_CfgReportsFirstFailingCheck_2 :
    (Instr.cfg 16 4 4 (-8) true).wellFormed = true ∧ 16 ≤ 16 ∧ 4 ≠ 2 ∧ 4 ≠ 3 := by decide
theorem witness_CfgReportsFirstFailingCheck_3 :
    (Instr.cfg 3 2 4 (-8) true).wellFormed = true ∧ 3 ≤ 16 ∧ (2 = 2 ∨ 2 = 3) ∧
      ((3 : Nat) : Int) - ((4 : Nat) : Int) - true.toNat < 1 := by decide
theorem witness_CfgReportsFirstFailingCheck_4 :
    (Instr.cfg 16 2 5 (-8) true).wellFormed = true ∧ 16 ≤ 16 ∧ (2 = 2 ∨ 2 = 3) ∧
      1 ≤ ((16 : Nat) : Int) - ((5 : Nat) : Int) - true.toNat ∧ 4 < 5 := by decide
theorem witness_CfgReportsFirstFailingCheck_5 :
    (Instr.cfg 12 2 4 0 true).wellFormed = true ∧ 12 ≤ 16 ∧ (2 = 2 ∨ 2 = 3) ∧
      1 ≤ ((12 : Nat) : Int) - ((4 : Nat) : Int) - true.toNat ∧ 4 ≤ 4 ∧ (0 : Int) ≤ 0 := by decide

theorem witness_RdcfgEchoesCfgWord :
    (nextState (exec (decode ⟨0x1#4, 0xFFFFFFFFF804020C#64, 0#64⟩) State.reset)).map
      (fun t => t.arch.cfgValid) = some true := by decide

/-- The hypothesis of the statements about a configured unit, signed (RDCFG, MAXV, MINV, ENC, DEC,
TOCMP, FRCMP, ABS, DENC, DDEC). -/
theorem witness_Configured_signed :
    p12.Configured ∧ p12.arith = .exact ∧ p12.arch.desc.sg = true := by decide

/-- The same, unsigned and under BINARY64. -/
theorem witness_Configured_unsigned :
    u6.Configured ∧ u6.arith = .binary64 ∧ u6.arch.desc.sg = false := by decide

/-- The clauses for a unit without a descriptor (RDCFG, TOCMP, ABS, DENC). -/
theorem witness_unconfigured : (unitAt .exact Arch.reset).arch.cfgValid = false := by decide

/-- Half the least subnormal, negative: midway between -0.0 and the word of the least subnormal. -/
theorem witness_RneIsNearestEven_subnormal_tie :
    |(-intPow 2 (-1075) : ℚ)| < 2 ^ 1024 - 2 ^ 970 ∧
      b64 |rne64 (-intPow 2 (-1075))| (decide (-intPow 2 (-1075) < 0)) = 0x8000000000000000#64 ∧
      isNaN 0x8000000000000001#64 = false ∧ isInf 0x8000000000000001#64 = false ∧
      |rne64 (-intPow 2 (-1075)) - -intPow 2 (-1075)|
        = |val 0x8000000000000001#64 - -intPow 2 (-1075)| ∧
      val 0x8000000000000001#64 ≠ rne64 (-intPow 2 (-1075)) := by decide +kernel

/-- 1 + 2^-53 lies midway between 1 and the next word. -/
theorem witness_RneIsNearestEven_tie :
    |(1 + intPow 2 (-53) : ℚ)| < 2 ^ 1024 - 2 ^ 970 ∧ isNaN 0x3FF0000000000001#64 = false ∧
      isInf 0x3FF0000000000001#64 = false ∧
      |rne64 (1 + intPow 2 (-53)) - (1 + intPow 2 (-53))|
        = |val 0x3FF0000000000001#64 - (1 + intPow 2 (-53))| ∧
      val 0x3FF0000000000001#64 ≠ rne64 (1 + intPow 2 (-53)) := by decide +kernel

/-- A quarter of a unit past the largest finite value, still short of overflow. -/
theorem witness_RneIsNearestEven_high :
    |(2 ^ 1024 - 2 ^ 970 - 2 ^ 969 : ℚ)| < 2 ^ 1024 - 2 ^ 970 ∧
      b64 |rne64 (2 ^ 1024 - 2 ^ 970 - 2 ^ 969)| (decide ((2 ^ 1024 - 2 ^ 970 - 2 ^ 969 : ℚ) < 0))
        = 0x7FEFFFFFFFFFFFFF#64 := by decide +kernel

theorem witness_ExactMagnitudeClosedForm :
    Desc.Legal archP12.desc ∧ 15 ≤ topIndex archP12.desc ∧ 127 ≤ mantissaMask archP12.desc := by
  decide

theorem witness_EncSpecialOperands_nan :
    p12.Configured ∧ isNaN 0xFFF8000000000001#64 = true := by decide
theorem witness_EncSpecialOperands_unsigned :
    u6.Configured ∧ u6.arch.desc.sg = false ∧ neg 0xFFF0000000000000#64 = true := by decide
theorem witness_EncSpecialOperands_infinite :
    isNaN 0xFFF0000000000000#64 = false ∧ p12.arch.desc.sg = true ∧
      isInf 0xFFF0000000000000#64 = true := by decide
theorem witness_EncSpecialOperands_saturated :
    isNaN 0x406FFFDFDFDFDFE0#64 = false ∧ neg 0x406FFFDFDFDFDFE0#64 = false ∧
      maxValue p12.arith p12.arch.desc ≤ absVal 0x406FFFDFDFDFDFE0#64 := by decide +kernel

/-- The largest word below P12's max_value. -/
theorem witness_EncFiniteOperands :
    p12.Configured ∧ isNaN 0x406FFFDFDFDFDFDF#64 = false ∧ isInf 0x406FFFDFDFDFDFDF#64 = false ∧
      p12.arch.desc.sg = true ∧
      absVal 0x406FFFDFDFDFDFDF#64 < maxValue p12.arith p12.arch.desc := by decide +kernel

theorem witness_ExactMantissaNeedsNoClamp :
    Desc.Legal archP12.desc ∧ (0 : ℚ) ≤ 255 ∧ 255 < maxValue .exact archP12.desc := by
  decide +kernel

theorem witness_EncIsMonotone_finite :
    Desc.Legal archP12.desc ∧ isNaN 0xBFF0000000000000#64 = false ∧
      isNaN 0x4000000000000000#64 = false ∧
      realLe 0xBFF0000000000000#64 0x4000000000000000#64 := by decide +kernel

theorem witness_EncIsMonotone_infinite :
    isNaN 0xFFF0000000000000#64 = false ∧ isNaN 0x7FF0000000000000#64 = false ∧
      realLe 0xFFF0000000000000#64 0x0000000000000001#64 ∧
      realLe 0xC06FFFDFDFDFDFE0#64 0x7FF0000000000000#64 := by decide +kernel

theorem witness_DecIgnoresHighBits :
    0xF448#16 &&& codeMask p12.arch.desc = 0x7448#16 &&& codeMask p12.arch.desc := by decide

theorem witness_DecSignSymmetry :
    p12.Configured ∧ 0x448#16 &&& signMask p12.arch.desc = 0#16 ∧ p12.arch.desc.sg = true := by
  decide

theorem witness_ExactEncInvertsDec :
    p12.Configured ∧ p12.arith = .exact ∧
      0xF801#16 &&& codeMask p12.arch.desc ≠ signMask p12.arch.desc := by decide

theorem witness_ComparableOrderIsRealOrder :
    Desc.Legal archP12.desc ∧
      val (decodeValue .exact archP12.desc 0xC48#16) < val (decodeValue .exact archP12.desc 0x448#16) := by
  decide +kernel

/-- The converse, one step above +0; and the excepted pair is in comparable order. -/
theorem witness_ComparableOrderIsRealOrder_converse :
    Desc.Legal archP12.desc ∧ archP12.desc.sg = true ∧
      (toCmp archP12.desc 0x000#16).toNat < (toCmp archP12.desc 0x001#16).toNat ∧
      ¬(archP12.desc.sg = true ∧ 0x000#16 &&& codeMask archP12.desc = signMask archP12.desc ∧
        0x001#16 &&& codeMask archP12.desc = 0#16) ∧
      (toCmp archP12.desc 0x800#16).toNat < (toCmp archP12.desc 0x000#16).toNat := by decide

theorem witness_DdecZeroReturnsLast : p12.arch.cfgValid = true := by decide

theorem witness_DdecSaturates : p12.Configured ∧ (-9223372036854775808 : Int) ≠ 0 := by
  decide

/-- Both clauses of the round trip: a delta of 387 and a delta of 0. -/
theorem witness_DeltaRoundTrip :
    p12.Configured ∧ p12.Answers (.denc 0x89F#16 0x0E3#16) 387#64 ∧
      p12.Answers (.denc 0xF448#16 0x448#16) 0#64 := ⟨by decide, rfl, rfl⟩

theorem witness_DdecIsMonotone : Desc.Legal archP12.desc ∧ (-1 : Int) ≤ 0 := by decide

end Sys2Proof.Tests
end

section
/-! PROOF. An edge without reset is the unit's step function on the accepted command (00_scope.md rule
R3). -/

namespace Sys2Proof.Machine

/-- Without reset the port is ready whenever there is room, so a command is accepted exactly when it
is offered and there is room (R164). -/
theorem accepts_iff {s : State} (hrst : s.edge.rst = false) :
    s.accepts = true ↔ s.edge.reqValid = true ∧ s.outstanding.length < s.depth := by
  simp [State.accepts, State.reqReady, hrst]

theorem step_of_accepts {s : State} (hrst : s.edge.rst = false) (hacc : s.accepts = true) :
    step s = exec (decode s.edge.req) s.settle := by
  simp [step, hrst, hacc]

theorem step_of_not_accepts {s : State} (hrst : s.edge.rst = false) (hacc : s.accepts = false) :
    step s = .next s.settle := by
  simp [step, hrst, hacc]

/-- The responses since reset are a matter of what is delivered and what is in flight alone. -/
theorem withArch_responses (s : State) (x : Arch) : (s.withArch x).responses = s.responses := by
  simp only [State.responses, State.withArch_delivered, State.withArch_outstanding]

/-- Settles O7: `settle` moves no response out of order, and the accepted command runs as on the unit
by itself. -/
theorem edgeIsUnitStep : Obligations.EdgeIsUnitStep := by
  intro s hrst
  refine ⟨accepts_iff hrst, ?_⟩
  cases hacc : s.accepts with
  | false =>
    exact ⟨s.settle, step_of_not_accepts hrst hacc, rfl, rfl, nofun,
      fun _ => ⟨rfl, settle_responses s⟩⟩
  | true =>
    refine ⟨_, (step_of_accepts hrst hacc).trans (exec_eq_unitStep _ _), rfl, rfl,
      fun _ => ⟨rfl, ?_⟩, nofun⟩
    rw [push_responses, withArch_responses, settle_responses, State.settle_arith,
      State.settle_arch]

end Sys2Proof.Machine
end

section
/-! SUPPORT. Rounding to an integer and to binary64, and the fields of binary64 words (00_scope.md
rules R10, R11 and R13). -/

namespace Sys2Proof.Machine

/-! ### `roundEven` is the nearest integer, ties to even -/

/-- An integer other than the rounded one is at least one half away. -/
theorem one_sub_le_abs_sub_of_ne {x : ℚ} {z : ℤ} (hz : z ≠ roundEven x) :
    1 - |(roundEven x : ℚ) - x| ≤ |(z : ℚ) - x| := by
  have h1 : (1 : ℚ) ≤ |(z : ℚ) - roundEven x| := by
    exact_mod_cast Int.one_le_abs (sub_ne_zero.mpr hz)
  have h2 := abs_sub_le (z : ℚ) x (roundEven x)
  rw [abs_sub_comm x] at h2
  linarith

theorem abs_roundEven_sub_le_abs_sub (x : ℚ) (z : ℤ) :
    |(roundEven x : ℚ) - x| ≤ |(z : ℚ) - x| := by
  by_cases hz : z = roundEven x
  · rw [hz]
  · have h1 := one_sub_le_abs_sub_of_ne hz
    have h2 := abs_roundEven_sub_le x
    linarith

/-- Only an argument midway between two integers is rounded by one half, and then to the even one. -/
theorem roundEven_even_of_half_le {x : ℚ} (h : 1 / 2 ≤ |(roundEven x : ℚ) - x|) :
    roundEven x % 2 = 0 := by
  have h1 := Int.floor_le x
  have h2 := Int.lt_floor_add_one x
  revert h
  unfold roundEven
  simp only
  split_ifs with hlt hgt heven
  · rw [abs_of_nonpos (by linarith)]
    intro h
    linarith
  · push_cast
    rw [abs_of_nonneg (by linarith)]
    intro h
    linarith
  · exact fun _ => heven
  · omega

theorem roundEven_even_of_tie {x : ℚ} {z : ℤ}
    (htie : |(roundEven x : ℚ) - x| = |(z : ℚ) - x|) (hz : z ≠ roundEven x) :
    roundEven x % 2 = 0 := by
  have h := one_sub_le_abs_sub_of_ne hz
  exact roundEven_even_of_half_le (by linarith)

theorem roundEven_nonneg {x : ℚ} (hx : 0 ≤ x) : 0 ≤ roundEven x := by
  have h := (abs_le.mp (abs_roundEven_sub_le x)).1
  have h' : (-1 : ℚ) < roundEven x := by linarith
  have : -1 < roundEven x := by exact_mod_cast h'
  omega

theorem abs_natAbs_roundEven_sub_le (x : ℚ) : abs ((roundEven x).natAbs - |x|) ≤ 1 / 2 := by
  rw [Nat.cast_natAbs, Int.cast_abs]
  exact (abs_abs_sub_abs_le_abs_sub _ _).trans (abs_roundEven_sub_le x)

theorem natAbs_roundEven_le {x : ℚ} {n : ℕ} (h : |x| ≤ n) : (roundEven x).natAbs ≤ n := by
  obtain ⟨_, _⟩ := abs_le.mp (abs_natAbs_roundEven_sub_le x)
  have : ((roundEven x).natAbs : ℚ) < n + 1 := by linarith
  exact Nat.lt_succ_iff.mp (by exact_mod_cast this)

theorem natAbs_roundEven_lt {x : ℚ} {n : ℕ} (h : |x| < n - 1 / 2) : (roundEven x).natAbs < n := by
  obtain ⟨_, _⟩ := abs_le.mp (abs_natAbs_roundEven_sub_le x)
  have : ((roundEven x).natAbs : ℚ) < n := by linarith
  exact_mod_cast this

theorem le_natAbs_roundEven {x : ℚ} {n : ℕ} (h : n ≤ |x|) : n ≤ (roundEven x).natAbs := by
  obtain ⟨_, _⟩ := abs_le.mp (abs_natAbs_roundEven_sub_le x)
  have : (n : ℚ) < (roundEven x).natAbs + 1 := by linarith
  exact Nat.lt_succ_iff.mp (by exact_mod_cast this)

/-! ### The unit in the last place -/

theorem intPow_two (k : ℤ) : intPow 2 k = (2 : ℚ) ^ k := by
  simp [intPow_eq_zpow]

/-- A power of two, split at an exponent: `2^a = 2^b * 2^c`. -/
theorem two_zpow_eq_mul {a b c : ℤ} (h : a = b + c) : (2 : ℚ) ^ a = 2 ^ b * 2 ^ c := by
  rw [h, zpow_add₀ two_ne_zero]

theorem two_zpow_pos (k : ℤ) : (0 : ℚ) < 2 ^ k := zpow_pos two_pos k

/-- The binade is the only exponent with the property `binade_spec` states. -/
theorem binade_eq {q : ℚ} {e : ℤ} (hlo : (2 : ℚ) ^ e ≤ q) (hhi : q < (2 : ℚ) ^ (e + 1)) :
    binade q = e := by
  obtain ⟨blo, bhi⟩ := binade_spec ((two_zpow_pos e).trans_le hlo)
  have h1 := (zpow_lt_zpow_iff_right₀ one_lt_two).mp (blo.trans_lt hhi)
  have h2 := (zpow_lt_zpow_iff_right₀ one_lt_two).mp (hlo.trans_lt bhi)
  omega

theorem le_ulpExp (q : ℚ) : -1074 ≤ ulpExp q := le_max_right _ _

/-- A positive rational is below 2^53 units in the last place. -/
theorem lt_mul_ulp {q : ℚ} (hq : 0 < q) : q < 2 ^ 53 * 2 ^ ulpExp q := by
  have hle : binade q - 52 ≤ ulpExp q := le_max_left _ _
  calc q < 2 ^ (binade q + 1) := (binade_spec hq).2
    _ ≤ 2 ^ (53 + ulpExp q) := zpow_le_zpow_right₀ one_le_two (by omega)
    _ = 2 ^ 53 * 2 ^ ulpExp q := two_zpow_eq_mul rfl

/-- Above the subnormals a positive rational has at least 2^52 units in the last place. -/
theorem mul_ulp_le {q : ℚ} (hq : 0 < q) (hu : ulpExp q ≠ -1074) :
    2 ^ 52 * 2 ^ ulpExp q ≤ q := by
  have hb : binade q = 52 + ulpExp q := by
    unfold ulpExp at hu ⊢
    omega
  calc (2 : ℚ) ^ 52 * 2 ^ ulpExp q = 2 ^ binade q := (two_zpow_eq_mul hb).symm
    _ ≤ q := (binade_spec hq).1

/-- The bound short of overflow, in units of the largest binade. -/
theorem overflow_bound : (2 : ℚ) ^ 1024 - 2 ^ 970 = (2 ^ 53 - 1 / 2) * 2 ^ (971 : ℤ) := by
  have h1 : (2 : ℚ) ^ 1024 = 2 ^ 54 * 2 ^ 970 := by rw [← pow_add]
  have h2 : (2 : ℚ) ^ (971 : ℤ) = 2 * 2 ^ 970 := by
    rw [← pow_succ']
    exact zpow_natCast 2 971
  rw [h1, h2]
  generalize (2 : ℚ) ^ 970 = p
  ring

theorem ulpExp_le {q : ℚ} (hq : 0 < q) (hlt : q < (2 ^ 53 - 1 / 2) * 2 ^ (971 : ℤ)) :
    ulpExp q ≤ 971 := by
  by_contra hgt
  have h := mul_ulp_le hq (by omega)
  have hpow : (2 : ℚ) * 2 ^ (971 : ℤ) ≤ 2 ^ ulpExp q := by
    rw [← zpow_one_add₀ two_ne_zero]
    exact zpow_le_zpow_right₀ one_le_two (by omega)
  have hp := two_zpow_pos 971
  generalize (2 : ℚ) ^ (971 : ℤ) = p at *
  linarith

/-! ### The fields of a word -/

theorem f64Sign_append (s : Bool) (e : BitVec 11) (t : BitVec 52) :
    f64Sign (BitVec.ofBool s ++ e ++ t) = s := by
  change (BitVec.ofBool s ++ e ++ t).getLsbD 63 = s
  rw [BitVec.getLsbD_append, BitVec.getLsbD_append]
  simp

theorem f64Exp_append (s : Bool) (e : BitVec 11) (t : BitVec 52) :
    f64Exp (BitVec.ofBool s ++ e ++ t) = e.toNat := by
  have h : (BitVec.ofBool s ++ e ++ t).extractLsb' 52 11 = e := by
    ext i hi
    rw [BitVec.getElem_extractLsb', BitVec.getLsbD_append, BitVec.getLsbD_append]
    simp [hi]
  exact congrArg BitVec.toNat h

theorem f64Frac_append (s : Bool) (e : BitVec 11) (t : BitVec 52) :
    f64Frac (BitVec.ofBool s ++ e ++ t) = t.toNat := by
  have h : (BitVec.ofBool s ++ e ++ t).extractLsb' 0 52 = t := by
    ext i hi
    rw [BitVec.getElem_extractLsb', BitVec.getLsbD_append]
    simp [hi]
  exact congrArg BitVec.toNat h

theorem f64Frac_lt (w : Word64) : f64Frac w < 2 ^ 52 := (w.extractLsb' 0 52).isLt

/-- The integer significand of a word: the fraction, with the hidden bit of a normal word. -/
def f64Sig (w : Word64) : ℕ := if f64Exp w = 0 then f64Frac w else 2 ^ 52 + f64Frac w

/-- The exponent of the unit in the last place of a word. -/
def f64UlpExp (w : Word64) : ℤ := max (f64Exp w : ℤ) 1 - 1075

theorem f64Sig_lt (w : Word64) : f64Sig w < 2 ^ 53 := by
  have := f64Frac_lt w
  unfold f64Sig
  split <;> omega

theorem le_f64UlpExp (w : Word64) : -1074 ≤ f64UlpExp w := by
  unfold f64UlpExp
  omega

/-- A word's magnitude is its significand times its unit in the last place (R10). -/
theorem absVal_eq (w : Word64) : absVal w = f64Sig w * 2 ^ f64UlpExp w := by
  unfold absVal f64Sig f64UlpExp
  split
  · next h =>
    rw [h, intPow_two, two_zpow_eq_mul (show (-1022 : ℤ) = 52 + -1074 by rfl), zpow_ofNat,
      show max ((0 : ℕ) : ℤ) 1 - 1075 = -1074 by rfl]
    ring
  · next h =>
    rw [intPow_two, max_eq_left (by omega),
      two_zpow_eq_mul (show (f64Exp w : ℤ) - 1023 = 52 + (f64Exp w - 1075) by omega), zpow_ofNat]
    push_cast
    ring

theorem absVal_nonneg (w : Word64) : 0 ≤ absVal w := by
  rw [absVal_eq]
  have := two_zpow_pos (f64UlpExp w)
  positivity

theorem abs_val (w : Word64) : |val w| = absVal w := by
  unfold val
  split
  · rw [abs_neg, abs_of_nonneg (absVal_nonneg w)]
  · exact abs_of_nonneg (absVal_nonneg w)

/-! ### The word of a representable magnitude -/

/-- The significands and exponents of the finite words, each magnitude once: a significand of 53
bits, with its highest bit set above the subnormals. -/
structure Canonical64 (n : ℕ) (k : ℤ) : Prop where
  sig_lt : n < 2 ^ 53
  le_exp : -1074 ≤ k
  exp_le : k ≤ 971
  normal : k = -1074 ∨ 2 ^ 52 ≤ n

/-- The fields of `b64`, for a subnormal magnitude or zero. -/
theorem b64_subnormal {n : ℕ} (hn : n < 2 ^ 52) (s : Bool) :
    b64 (n * 2 ^ (-1074 : ℤ)) s = BitVec.ofBool s ++ 0#11 ++ BitVec.ofNat 52 n := by
  rcases Nat.eq_zero_or_pos n with rfl | hpos
  · cases s <;> simp [b64]
  · have hp := two_zpow_pos (-1074)
    have hn1 : (1 : ℚ) ≤ n := by exact_mod_cast hpos
    have hn2 : (n : ℚ) < 2 ^ 52 := by exact_mod_cast hn
    have hq : (0 : ℚ) < n * 2 ^ (-1074 : ℤ) := by positivity
    have hb : binade (n * 2 ^ (-1074 : ℤ)) < -1022 := by
      refine (zpow_lt_zpow_iff_right₀ (one_lt_two (α := ℚ))).mp ?_
      calc (2 : ℚ) ^ binade (n * 2 ^ (-1074 : ℤ)) ≤ n * 2 ^ (-1074 : ℤ) := (binade_spec hq).1
        _ < 2 ^ 52 * 2 ^ (-1074 : ℤ) := by gcongr
        _ = 2 ^ (-1022 : ℤ) := (two_zpow_eq_mul (b := 52) (c := -1074) rfl).symm
    have hfloor : ⌊(n : ℚ) * 2 ^ (-1074 : ℤ) * 2 ^ (1074 : ℤ)⌋ = n := by
      rw [mul_assoc, ← two_zpow_eq_mul (show (0 : ℤ) = -1074 + 1074 by rfl), zpow_zero, mul_one,
        Int.floor_natCast]
    unfold b64
    simp only [intPow_two]
    rw [if_neg hq.ne', if_pos hb, hfloor, BitVec.ofInt_natCast]

/-- The fields of `b64`, for a normal magnitude. -/
theorem b64_normal {n : ℕ} {k : ℤ} (h : Canonical64 n k) (hn : 2 ^ 52 ≤ n) (s : Bool) :
    b64 (n * 2 ^ k) s =
      BitVec.ofBool s ++ BitVec.ofNat 11 (k + 1075).toNat ++ BitVec.ofNat 52 (n - 2 ^ 52) := by
  have hp := two_zpow_pos k
  have hn1 : (2 : ℚ) ^ 52 ≤ n := by exact_mod_cast hn
  have hn2 : (n : ℚ) < 2 ^ 53 := by exact_mod_cast h.sig_lt
  have hb : binade (n * 2 ^ k) = k + 52 := by
    apply binade_eq
    · rw [two_zpow_eq_mul (add_comm k 52), zpow_ofNat]
      gcongr
    · rw [two_zpow_eq_mul (show k + 52 + 1 = 53 + k by omega), zpow_ofNat]
      gcongr
  have hexp : k + 52 + 1023 = ((k + 1075).toNat : ℤ) := by
    have := h.le_exp
    omega
  have hfloor : ⌊((n : ℚ) * 2 ^ k / 2 ^ (k + 52) - 1) * 2 ^ 52⌋ = ((n - 2 ^ 52 : ℕ) : ℤ) := by
    rw [Int.floor_eq_iff, two_zpow_eq_mul (add_comm k 52), mul_div_mul_right _ _ hp.ne', zpow_ofNat]
    rw [Int.cast_natCast, Nat.cast_sub hn]
    push_cast
    constructor <;> linarith
  have hq : (n : ℚ) * 2 ^ k ≠ 0 := by positivity
  unfold b64
  simp only [intPow_two, hb]
  have hk := h.le_exp
  rw [if_neg hq, if_neg (by omega), hfloor, hexp, BitVec.ofInt_natCast, BitVec.ofInt_natCast]

/-- What `b64` gives for a representable magnitude: a finite word with the sign, the significand and
the unit in the last place asked for. -/
theorem b64_fields {n : ℕ} {k : ℤ} (h : Canonical64 n k) (s : Bool) :
    f64Sign (b64 (n * 2 ^ k) s) = s ∧ f64Exp (b64 (n * 2 ^ k) s) < 0x7FF ∧
      f64Sig (b64 (n * 2 ^ k) s) = n ∧ f64UlpExp (b64 (n * 2 ^ k) s) = k := by
  obtain ⟨hlt, hlo, hhi, hnormal⟩ := h
  rcases Nat.lt_or_ge n (2 ^ 52) with hn | hn
  · obtain rfl : k = -1074 := by omega
    rw [b64_subnormal hn]
    simp only [f64Sig, f64UlpExp, f64Sign_append, f64Exp_append, f64Frac_append,
      BitVec.toNat_ofNat, Nat.mod_eq_of_lt hn]
    simp
  · have he : (k + 1075).toNat < 2 ^ 11 := by omega
    have ht : n - 2 ^ 52 < 2 ^ 52 := by omega
    rw [b64_normal ⟨hlt, hlo, hhi, hnormal⟩ hn]
    simp only [f64Sig, f64UlpExp, f64Sign_append, f64Exp_append, f64Frac_append,
      BitVec.toNat_ofNat, Nat.mod_eq_of_lt he, Nat.mod_eq_of_lt ht]
    refine ⟨trivial, by omega, ?_, by omega⟩
    rw [if_neg (by omega)]
    omega

theorem not_nan_inf_of_exp_lt {w : Word64} (h : f64Exp w < 0x7FF) :
    isNaN w = false ∧ isInf w = false := by
  simp [isNaN, isInf, h.ne]

theorem absVal_b64 {n : ℕ} {k : ℤ} (h : Canonical64 n k) (s : Bool) :
    absVal (b64 (n * 2 ^ k) s) = n * 2 ^ k := by
  obtain ⟨_, _, hsig, hulp⟩ := b64_fields h s
  rw [absVal_eq, hsig, hulp]

theorem val_b64 {n : ℕ} {k : ℤ} (h : Canonical64 n k) (s : Bool) :
    val (b64 (n * 2 ^ k) s) = if s then -(n * 2 ^ k : ℚ) else n * 2 ^ k := by
  rw [val, (b64_fields h s).1, absVal_b64 h]

/-- The hidden bit does not change the parity. -/
theorem f64Frac_mod_two (w : Word64) : f64Frac w % 2 = f64Sig w % 2 := by
  unfold f64Sig
  split <;> omega

/-! ### `rne64` -/

/-- `rne64` without its case for 0. -/
theorem rne64_eq (q : ℚ) :
    rne64 q = roundEven (q / 2 ^ ulpExp |q|) * 2 ^ ulpExp |q| := by
  unfold rne64
  simp only [intPow_two]
  split
  · next h => simp [h, roundEven]
  · rfl

theorem rne64_nonneg {q : ℚ} (hq : 0 ≤ q) : 0 ≤ rne64 q := by
  have hp := two_zpow_pos (ulpExp |q|)
  have hR : (0 : ℚ) ≤ roundEven (q / 2 ^ ulpExp |q|) := by
    exact_mod_cast roundEven_nonneg (div_nonneg hq hp.le)
  rw [rne64_eq]
  positivity

theorem rne64_nonpos {q : ℚ} (hq : q ≤ 0) : rne64 q ≤ 0 := by
  have h := rne64_nonneg (neg_nonneg.mpr hq)
  rw [rne64_neg] at h
  linarith

/-- The distance to a multiple of the unit in the last place, in units. -/
theorem abs_mul_ulp_sub (q z : ℚ) (u : ℤ) : |z * 2 ^ u - q| = |z - q / 2 ^ u| * 2 ^ u := by
  have hp := two_zpow_pos u
  rw [← abs_of_pos hp, ← abs_mul, abs_of_pos hp, sub_mul, div_mul_cancel₀ _ hp.ne']

/-- No multiple of the unit in the last place is nearer than `rne64 q`. -/
theorem rne64_nearest_multiple (q : ℚ) (z : ℤ) :
    |rne64 q - q| ≤ |z * 2 ^ ulpExp |q| - q| := by
  rw [rne64_eq, abs_mul_ulp_sub, abs_mul_ulp_sub]
  exact mul_le_mul_of_nonneg_right (abs_roundEven_sub_le_abs_sub _ z) (two_zpow_pos _).le

theorem roundEven_even_of_rne64_tie {q : ℚ} {z : ℤ}
    (htie : |rne64 q - q| = |z * 2 ^ ulpExp |q| - q|) (hne : z * 2 ^ ulpExp |q| ≠ rne64 q) :
    roundEven (q / 2 ^ ulpExp |q|) % 2 = 0 := by
  have hp := two_zpow_pos (ulpExp |q|)
  refine roundEven_even_of_tie (z := z) ?_ ?_
  · rw [rne64_eq, abs_mul_ulp_sub, abs_mul_ulp_sub] at htie
    exact mul_right_cancel₀ hp.ne' htie
  · rintro rfl
    exact hne (rne64_eq q).symm

/-- A word whose unit in the last place is no smaller than that at `q` is a multiple of the latter. -/
theorem val_eq_mul_of_le {w : Word64} {u : ℤ} (hu : u ≤ f64UlpExp w) :
    ∃ z : ℤ, val w = z * 2 ^ u := by
  obtain ⟨j, hj⟩ := Int.eq_ofNat_of_zero_le (sub_nonneg.mpr hu)
  have habs : absVal w = ((f64Sig w * 2 ^ j : ℕ) : ℤ) * 2 ^ u := by
    rw [absVal_eq, two_zpow_eq_mul (show f64UlpExp w = j + u by omega), zpow_natCast]
    push_cast
    ring
  unfold val
  split
  · exact ⟨-((f64Sig w * 2 ^ j : ℕ) : ℤ), by rw [habs]; push_cast; ring⟩
  · exact ⟨_, habs⟩

/-- A word with a smaller unit in the last place than that at `q` lies below `q`'s binade, and so
farther from `q` than the power of two at its foot. -/
theorem rne64_nearer_of_lt {q : ℚ} (hq : q ≠ 0) {w : Word64} (hu : f64UlpExp w < ulpExp |q|) :
    |rne64 q - q| < |val w - q| := by
  have hle := le_f64UlpExp w
  have hfoot := mul_ulp_le (abs_pos.mpr hq) (by omega)
  have hsig : (f64Sig w : ℚ) < 2 ^ 53 := by exact_mod_cast f64Sig_lt w
  have hp := two_zpow_pos (f64UlpExp w)
  have hval : |val w| < 2 ^ 52 * 2 ^ ulpExp |q| := by
    calc |val w| = f64Sig w * 2 ^ f64UlpExp w := by rw [abs_val, absVal_eq]
      _ < 2 ^ 53 * 2 ^ f64UlpExp w := by gcongr
      _ = 2 ^ 52 * 2 ^ (1 + f64UlpExp w) := by rw [zpow_one_add₀ two_ne_zero]; ring
      _ ≤ 2 ^ 52 * 2 ^ ulpExp |q| := by gcongr <;> [norm_num; omega]
  have hnear : |rne64 q - q| ≤ |q| - 2 ^ 52 * 2 ^ ulpExp |q| := by
    have hmul := rne64_nearest_multiple q
    generalize ulpExp |q| = u at *
    rcases lt_or_gt_of_ne hq with hneg | hpos
    · rw [abs_of_neg hneg] at hfoot ⊢
      refine (hmul (-2 ^ 52)).trans_eq ?_
      push_cast
      rw [abs_of_nonneg (by linarith)]
      ring
    · rw [abs_of_pos hpos] at hfoot ⊢
      refine (hmul (2 ^ 52)).trans_eq ?_
      push_cast
      rw [abs_of_nonpos (by linarith)]
      ring
  have htri := abs_sub_abs_le_abs_sub q (val w)
  rw [abs_sub_comm q] at htri
  linarith

/-- No word is nearer than `rne64 q`. -/
theorem rne64_nearest (q : ℚ) (w : Word64) : |rne64 q - q| ≤ |val w - q| := by
  rcases eq_or_ne q 0 with rfl | hq
  · simp [rne64]
  · rcases le_or_gt (ulpExp |q|) (f64UlpExp w) with hu | hu
    · obtain ⟨z, hz⟩ := val_eq_mul_of_le hu
      rw [hz]
      exact rne64_nearest_multiple q z
    · exact (rne64_nearer_of_lt hq hu).le

/-- Where a word of another value is as near, the significand chosen is even. -/
theorem rne64_tie_even {q : ℚ} {w : Word64} (htie : |rne64 q - q| = |val w - q|)
    (hne : val w ≠ rne64 q) : roundEven (q / 2 ^ ulpExp |q|) % 2 = 0 := by
  rcases eq_or_ne q 0 with rfl | hq
  · simp [roundEven]
  · rcases le_or_gt (ulpExp |q|) (f64UlpExp w) with hu | hu
    · obtain ⟨z, hz⟩ := val_eq_mul_of_le hu
      rw [hz] at htie hne
      exact roundEven_even_of_rne64_tie htie hne
    · exact absurd htie (rne64_nearer_of_lt hq hu).ne

/-- A rounded significand of at most 2^53 in canonical form: 2^53 itself is carried into the next
exponent, which is there unless the exponent was the largest. -/
theorem canonical_of_carry {n : ℕ} {u : ℤ} (hn : n ≤ 2 ^ 53) (hlo : -1074 ≤ u) (hhi : u ≤ 971)
    (hnormal : u = -1074 ∨ 2 ^ 52 ≤ n) (hmax : u = 971 → n < 2 ^ 53) :
    ∃ n' k, Canonical64 n' k ∧ (n : ℚ) * 2 ^ u = n' * 2 ^ k ∧ (n % 2 = 0 → n' % 2 = 0) := by
  rcases Nat.lt_or_eq_of_le hn with hlt | rfl
  · exact ⟨n, u, ⟨hlt, hlo, hhi, hnormal⟩, rfl, id⟩
  · refine ⟨2 ^ 52, u + 1, ⟨by norm_num, by omega, by omega, .inr le_rfl⟩, ?_, fun _ => rfl⟩
    rw [two_zpow_eq_mul (add_comm u 1), zpow_one]
    push_cast
    ring

/-- Short of overflow `rne64 q` is the magnitude of a finite word, up to its sign; and where the
rounded integer is even, so is the word's significand. -/
theorem rne64_canonical {q : ℚ} (hq : |q| < 2 ^ 1024 - 2 ^ 970) :
    ∃ n k, Canonical64 n k ∧ |rne64 q| = n * 2 ^ k ∧
      (roundEven (q / 2 ^ ulpExp |q|) % 2 = 0 → n % 2 = 0) := by
  rcases eq_or_ne q 0 with rfl | hq0
  · exact ⟨0, -1074, ⟨by norm_num, le_rfl, by norm_num, .inl rfl⟩, by simp [rne64], fun _ => rfl⟩
  rw [overflow_bound] at hq
  have hpos := abs_pos.mpr hq0
  have hlo := le_ulpExp |q|
  have hhi := ulpExp_le hpos hq
  have hlt := lt_mul_ulp hpos
  have hfoot := mul_ulp_le hpos
  have hrne := rne64_eq q
  generalize ulpExp |q| = u at *
  have hp := two_zpow_pos u
  have habs : |q / 2 ^ u| = |q| / 2 ^ u := by rw [abs_div, abs_of_pos hp]
  have hle : (roundEven (q / 2 ^ u)).natAbs ≤ 2 ^ 53 := by
    refine natAbs_roundEven_le ?_
    rw [habs, div_le_iff₀ hp]
    exact_mod_cast hlt.le
  have hnormal : u = -1074 ∨ 2 ^ 52 ≤ (roundEven (q / 2 ^ u)).natAbs := by
    refine or_iff_not_imp_left.mpr fun hu => le_natAbs_roundEven ?_
    rw [habs, le_div_iff₀ hp]
    exact_mod_cast hfoot hu
  have hmax : u = 971 → (roundEven (q / 2 ^ u)).natAbs < 2 ^ 53 := by
    rintro rfl
    refine natAbs_roundEven_lt ?_
    rw [habs, div_lt_iff₀ hp]
    rw [Nat.cast_pow, Nat.cast_ofNat]
    exact hq
  obtain ⟨n, k, hcanon, hval, heven⟩ := canonical_of_carry hle hlo hhi hnormal hmax
  refine ⟨n, k, hcanon, ?_, fun h => heven (by omega)⟩
  rw [hrne, abs_mul, abs_of_pos hp, ← hval, Nat.cast_natAbs, Int.cast_abs]

/-- The sign of the argument gives back `rne64 q` from its magnitude. -/
theorem signed_abs_rne64 (q : ℚ) :
    (if decide (q < 0) then -|rne64 q| else |rne64 q|) = rne64 q := by
  rcases lt_or_ge q 0 with h | h
  · rw [if_pos (decide_eq_true h), abs_of_nonpos (rne64_nonpos h.le), neg_neg]
  · rw [if_neg (by simpa using h), abs_of_nonneg (rne64_nonneg h)]

/-- Settles O26: against words with a unit in the last place no smaller than the one at `q`, rounding
to an integer decides; the other words lie below `q`'s binade. -/
theorem rneIsNearestEven : Obligations.RneIsNearestEven := by
  refine ⟨by simp [rne64, b64], fun q v hq hv => ?_⟩
  obtain ⟨n, k, hcanon, habs, heven⟩ := rne64_canonical hq
  have hval : val v = rne64 q := by
    rw [hv, habs, val_b64 hcanon, ← habs, signed_abs_rne64]
  rw [habs] at hv
  obtain ⟨-, hexp, hsig, -⟩ := b64_fields hcanon (decide (q < 0))
  rw [← hv] at hexp hsig
  obtain ⟨hnan, hinf⟩ := not_nan_inf_of_exp_lt hexp
  refine ⟨hval, hnan, hinf, fun w _ _ => ⟨rne64_nearest q w, fun htie hne => ?_⟩⟩
  rw [f64Frac_mod_two, hsig]
  exact heven (rne64_tie_even htie hne)

end Sys2Proof.Machine
end

section
/-! SUPPORT. The invariant of the machine: what a command leaves (10_state.md rules R22, R24 and
R25, 60_exceptions.md rule R140), and what an edge does to the responses and their number
(70_reset_and_hazards.md rule R167). -/

namespace Sys2Proof.Machine

/-! ### Commands other than CFG -/

/-- The nine commands of R142 differ only in the result they compute. -/
theorem exec_of_needsDescriptor {i : Instr} (h : i.needsDescriptor = true) :
    ∃ f, ∀ s, exec i s = s.whenConfigured f := by
  cases i with
  | maxv => exact ⟨maxvWord, fun _ => rfl⟩
  | minv => exact ⟨minvWord, fun _ => rfl⟩
  | enc w => exact ⟨fun ar d => zext64 (encodeValue ar d w), fun _ => rfl⟩
  | dec x => exact ⟨fun ar d => decodeValue ar d x, fun _ => rfl⟩
  | abs x => exact ⟨fun _ d => zext64 (absCode d x), fun _ => rfl⟩
  | tocmp x => exact ⟨fun _ d => zext64 (toCmp d x), fun _ => rfl⟩
  | frcmp u => exact ⟨fun _ d => zext64 (fromCmp d u), fun _ => rfl⟩
  | denc last x => exact ⟨fun _ d => sext64 (deltaOf d last x), fun _ => rfl⟩
  | ddec last delta => exact ⟨fun _ d => zext64 (applyDelta d last delta), fun _ => rfl⟩
  | reserved0 | cfg | rdcfg | reservedC | reservedD | reservedE | reservedF => cases h

/-- A command that needs no descriptor and is not CFG reads the status word or is reserved. -/
theorem exec_of_not_needsDescriptor {i : Instr} (h : i.needsDescriptor = false)
    (hcfg : i.isCfg = false) (s : State) :
    exec i s = execRdcfg s ∨ exec i s = s.illegalOpcode := by
  cases i with
  | rdcfg => exact .inl rfl
  | reserved0 | reservedC | reservedD | reservedE | reservedF => exact .inr rfl
  | cfg => cases hcfg
  | maxv | minv | enc | dec | abs | tocmp | frcmp | denc | ddec => cases h

/-- An OK response may carry any data (R140). -/
theorem Response.wf_ok (v : Word64) : Response.Wf ⟨.ok, v⟩ := ⟨nofun, nofun⟩

/-- Data 0 is what every error but CFG_ERROR carries (R140). -/
theorem Response.wf_data_zero {status : Status} (h : status ≠ .cfgError) :
    Response.Wf ⟨status, 0#64⟩ :=
  ⟨fun hcfg => absurd hcfg h, fun _ => rfl⟩

theorem configuredResponse_wf (ar : Arith) (x : Arch) (f : Arith → Desc → Word64) :
    Response.Wf (configuredResponse ar x f) := by
  unfold configuredResponse
  split
  · exact Response.wf_ok _
  · exact Response.wf_data_zero nofun

/-- A command other than CFG puts a response in flight, and does nothing else (R25). -/
theorem exec_of_not_cfg {i : Instr} (hcfg : i.isCfg = false) (s : State) :
    ∃ r, exec i s = .next (s.push r) ∧ Response.Wf r := by
  cases hneeds : i.needsDescriptor with
  | true =>
    obtain ⟨f, hf⟩ := exec_of_needsDescriptor hneeds
    exact ⟨_, (hf s).trans (whenConfigured_eq s f), configuredResponse_wf _ _ f⟩
  | false =>
    rcases exec_of_not_needsDescriptor hneeds hcfg s with h | h
    · exact ⟨_, h, Response.wf_ok _⟩
    · exact ⟨_, h.trans (illegalOpcode_eq s), Response.wf_data_zero nofun⟩

/-! ### CFG -/

/-- The checks of R71 accept exactly the ranges of R22. -/
theorem validateDesc_eq_zero_iff (d : Desc) : validateDesc d = 0 ↔ Desc.Legal d := by
  have hmine : -128 ≤ d.mine.toInt := BitVec.le_toInt d.mine
  unfold validateDesc validate
  constructor
  · intro h
    split_ifs at h
    unfold Desc.Legal
    omega
  · rintro ⟨_, htb, hbase, hxb, _, hneg, hwidth⟩
    split_ifs <;> omega

theorem validateDesc_le_five (d : Desc) : validateDesc d ≤ 5 := by
  unfold validateDesc validate
  split_ifs <;> omega

theorem inv_configuredArch {d : Desc} (h : Desc.Legal d) : Arch.Inv (configuredArch d) :=
  ⟨fun _ => ⟨h, rfl⟩, nofun⟩

theorem inv_failedArch {cause : Nat} (h : cause ≤ 5) : Arch.Inv (failedArch cause) := by
  refine ⟨nofun, fun _ => ⟨rfl, ?_⟩⟩
  rw [failedArch, BitVec.toNat_ofNat]
  omega

theorem Response.wf_cfgError {cause : Nat} (hpos : cause ≠ 0) (hle : cause ≤ 5) :
    Response.Wf ⟨.cfgError, BitVec.ofNat 64 cause⟩ := by
  refine ⟨fun _ => ?_, nofun⟩
  rw [BitVec.toNat_ofNat]
  omega

/-- Whatever the state was, CFG leaves an architectural state that meets the invariant. -/
theorem execCfg_inv (tb base xb : Nat) (mine : Int) (sg : Bool) (s : State) :
    ∃ x r, execCfg tb base xb mine sg s = .next ((s.withArch x).push r) ∧
      Arch.Inv x ∧ Response.Wf r := by
  rw [execCfg_eq]
  generalize descOf tb base xb mine sg = d
  split
  · next hvalid =>
    exact ⟨_, _, rfl, inv_configuredArch ((validateDesc_eq_zero_iff d).mp hvalid), Response.wf_ok _⟩
  · next hinvalid =>
    have hle := validateDesc_le_five d
    exact ⟨_, _, rfl, inv_failedArch hle, Response.wf_cfgError hinvalid hle⟩

/-- What every command does: a well-formed response in flight, and an architectural state that is
the old one or, for CFG alone, a new one that meets the invariant. -/
theorem exec_cases (i : Instr) (s : State) :
    ∃ x r, exec i s = .next ((s.withArch x).push r) ∧ Response.Wf r ∧
      (x = s.arch ∨ i.isCfg = true ∧ Arch.Inv x) := by
  cases hcfg : i.isCfg with
  | false =>
    obtain ⟨r, h, hr⟩ := exec_of_not_cfg hcfg s
    exact ⟨s.arch, r, h, hr, .inl rfl⟩
  | true =>
    cases i with
    | cfg tb base xb mine sg =>
      obtain ⟨x, r, h, hx, hr⟩ := execCfg_inv tb base xb mine sg s
      exact ⟨x, r, h, hr, .inr ⟨rfl, hx⟩⟩
    | _ => cases hcfg

/-! ### Edges -/

/-- The invariant asks the same of a response in flight and of a delivered one, so it is a matter of
the sequence of responses, which `settle` does not change. -/
theorem inv_iff_responses (s : State) :
    State.Inv s ↔ Arch.Inv s.arch ∧ s.outstanding.length ≤ s.depth ∧
      ∀ r ∈ s.responses, Response.Wf r := by
  simp only [State.Inv, State.responses, List.forall_mem_append, List.forall_mem_map,
    and_comm (a := ∀ r ∈ s.delivered, Response.Wf r)]

@[simp] theorem State.settle_depth (s : State) : s.settle.depth = s.depth := rfl

theorem settle_length_le (s : State) : s.settle.outstanding.length ≤ s.outstanding.length := by
  rw [State.settle_outstanding, tick_length]
  split
  · simp
  · exact le_rfl

theorem settle_inv {s : State} (h : State.Inv s) : State.Inv s.settle := by
  rw [inv_iff_responses] at h ⊢
  obtain ⟨harch, hlen, hwf⟩ := h
  rw [State.settle_arch, State.settle_depth, settle_responses]
  exact ⟨harch, (settle_length_le s).trans hlen, hwf⟩

/-- A reset edge leaves nothing to which the invariant could object. -/
theorem resetEdge_inv (s : State) : State.Inv s.resetEdge :=
  ⟨⟨nofun, fun _ => ⟨rfl, Nat.zero_le 5⟩⟩, Nat.zero_le _, nofun, nofun⟩

@[simp] theorem State.withArch_depth (s : State) (x : Arch) : (s.withArch x).depth = s.depth := rfl

@[simp] theorem State.push_depth (s : State) (r : Response) : (s.push r).depth = s.depth := rfl

/-- A command keeps the invariant where there is room for its response. -/
theorem exec_inv {i : Instr} {s t : State} (h : State.Inv s)
    (hroom : s.outstanding.length < s.depth) (hexec : exec i s = .next t) : State.Inv t := by
  obtain ⟨x, r, hx, hr, harch'⟩ := exec_cases i s
  obtain rfl : (s.withArch x).push r = t := Host.Outcome.next.inj (hx.symm.trans hexec)
  rw [inv_iff_responses] at h ⊢
  obtain ⟨harch, -, hwf⟩ := h
  refine ⟨?_, by simpa using Nat.succ_le_of_lt hroom, ?_⟩
  · rcases harch' with rfl | ⟨-, hinv⟩
    · exact harch
    · exact hinv
  · rw [push_responses, withArch_responses, List.forall_mem_append, List.forall_mem_singleton]
    exact ⟨hwf, hr⟩

end Sys2Proof.Machine
end

section
/-! PROOF. The statements about the machine's state: reset, the invariant, and the one command that
writes architectural state (10_state.md rules R21, R22 and R25). -/

namespace Sys2Proof.Machine

/-- Settles O3: an edge resets, or settles, or settles and runs a command for whose response there
is room. -/
theorem stepKeepsInvariant : Obligations.StepKeepsInvariant := by
  intro s t hinv hstep
  rcases step_cases hstep with ⟨-, rfl⟩ | ⟨hrst, hacc, hexec⟩ | ⟨-, -, rfl⟩
  · exact resetEdge_inv s
  · obtain ⟨-, hroom⟩ := (accepts_iff hrst).mp hacc
    exact exec_inv (settle_inv hinv) ((settle_length_le s).trans_lt hroom) hexec
  · exact settle_inv hinv

/-- Settles O1: the reset values are those of R21, and CFG_VALID = 0 is all that the nine commands
look at. -/
theorem resetLeavesNoDescriptor : Obligations.ResetLeavesNoDescriptor := by
  refine ⟨rfl, rfl, rfl, rfl, rfl, rfl, rfl, rfl, fun i hi => ?_⟩
  obtain ⟨f, hf⟩ := exec_of_needsDescriptor hi
  exact (hf State.reset).trans (whenConfigured_of_invalid rfl f)

/-- Settles O2: the reset state is what a reset edge makes of itself. -/
theorem resetMeetsInvariant : Obligations.ResetMeetsInvariant := resetEdge_inv State.reset

/-- Settles O18: `settle` keeps the architectural state, and so does every command but CFG. -/
theorem onlyCfgWritesState : Obligations.OnlyCfgWritesState := by
  refine ⟨fun s t hstep hne => ?_, fun i s => ?_⟩
  · rcases step_cases hstep with ⟨hrst, -⟩ | ⟨-, hacc, hexec⟩ | ⟨-, -, rfl⟩
    · exact .inl hrst
    · refine .inr ⟨hacc, eq_true_of_ne_false fun hcfg => hne ?_⟩
      obtain ⟨r, hr, -⟩ := exec_of_not_cfg hcfg s.settle
      obtain rfl : s.settle.push r = t := Host.Outcome.next.inj (hr.symm.trans hexec)
      rfl
    · exact absurd rfl hne
  · obtain ⟨x, r, hexec, -, harch⟩ := exec_cases i s
    refine ⟨_, hexec, fun hcfg => ?_, rfl, rfl, rfl, rfl, rfl, r, rfl⟩
    rcases harch with rfl | ⟨hcfg', -⟩
    · rfl
    · exact absurd hcfg' (by simp [hcfg])

end Sys2Proof.Machine
end

section
/-! PROOF. The statements about the unit's memory of past commands: the fold of its step function over
the accepted commands, and idempotence (20_memory.md rules R44 and R45). -/

namespace Sys2Proof.Machine

/-! ### The fold of the step function -/

/-- Folding over two sequences in turn: the second begins in the state the first leaves. -/
theorem unitRun_append (ar : Arith) (x : Arch) (cs ds : List Command) :
    unitRun ar x (cs ++ ds) =
      ((unitRun ar (unitRun ar x cs).1 ds).1,
        (unitRun ar x cs).2 ++ (unitRun ar (unitRun ar x cs).1 ds).2) := by
  induction cs generalizing x with
  | nil => rfl
  | cons c cs ih => simp only [List.cons_append, unitRun, ih]

theorem unitRun_singleton (ar : Arith) (x : Arch) (c : Command) :
    unitRun ar x [c] = ((unitStep ar x (decode c)).1, [(unitStep ar x (decode c)).2]) := rfl

/-- An edge without reset continues the fold by the commands it accepts, one or none. -/
theorem step_unitRun_accepted {s t : State} (hrst : s.edge.rst = false) (hstep : step s = .next t) :
    t.arith = s.arith ∧ t.arch = (unitRun s.arith s.arch s.accepted).1 ∧
      t.responses = s.responses ++ (unitRun s.arith s.arch s.accepted).2 := by
  obtain ⟨-, t', hstep', harith, -, hacc, hnot⟩ := edgeIsUnitStep s hrst
  obtain rfl : t' = t := Host.Outcome.next.inj (hstep'.symm.trans hstep)
  refine ⟨harith, ?_⟩
  cases ha : s.accepts with
  | true =>
    rw [State.accepted, if_pos ha, unitRun_singleton]
    exact hacc ha
  | false =>
    obtain ⟨harch, hresp⟩ := hnot ha
    simp [State.accepted, ha, unitRun, harch, hresp]

theorem step_of_rst {s : State} (hrst : s.edge.rst = true) : step s = .next s.resetEdge := by
  simp [step, hrst]

/-- A reset edge starts the fold anew. -/
theorem resetEdge_explained (s : State) : s.resetEdge.Explained [] := rfl

/-- Settles O10: the reset state is what a reset edge makes of itself. -/
theorem resetIsExplained : Obligations.ResetIsExplained := resetEdge_explained State.reset

/-- Settles O11: an edge starts the fold anew or continues it from where the commands so far left
it. -/
theorem responsesFoldAcceptedCommands : Obligations.ResponsesFoldAcceptedCommands := by
  intro s t cs hs hstep
  cases hrst : s.edge.rst with
  | true =>
    obtain rfl : s.resetEdge = t := Host.Outcome.next.inj ((step_of_rst hrst).symm.trans hstep)
    rw [if_pos rfl]
    exact resetEdge_explained s
  | false =>
    obtain ⟨harith, harch, hresp⟩ := step_unitRun_accepted hrst hstep
    rw [if_neg Bool.false_ne_true, State.Explained, harith, unitRun_append, hs, harch, hresp]

/-! ### Idempotence -/

/-- What a command leaves on the unit by itself is what the step function gives. -/
theorem unitStep_eq_of_exec {ar : Arith} {x y : Arch} {i : Instr} {r : Response}
    (h : exec i (unitAt ar x) = .next (((unitAt ar x).withArch y).push r)) :
    unitStep ar x i = (y, r) := by
  rw [unitStep, h]
  rfl

/-- A command other than CFG leaves the architectural state as it was (R25). -/
theorem unitStep_arch_of_not_cfg {i : Instr} (hcfg : i.isCfg = false) (ar : Arith) (x : Arch) :
    (unitStep ar x i).1 = x := by
  obtain ⟨r, hexec, -⟩ := exec_of_not_cfg hcfg (unitAt ar x)
  rw [unitStep_eq_of_exec (y := x) hexec]

/-- CFG does not look at the state it replaces (R70). -/
theorem unitStep_cfg_eq (ar : Arith) (x y : Arch) (tb base xb : Nat) (mine : Int) (sg : Bool) :
    unitStep ar x (.cfg tb base xb mine sg) = unitStep ar y (.cfg tb base xb mine sg) := by
  simp only [unitStep, exec, execCfg_eq]
  split <;> rfl

/-- Settles O19: CFG does not look at the state, and every other command finds it unchanged. -/
theorem commandsAreIdempotent : Obligations.CommandsAreIdempotent := by
  intro ar x i
  refine ⟨?_, fun hcfg => unitStep_arch_of_not_cfg hcfg ar x⟩
  cases hcfg : i.isCfg with
  | false => rw [unitStep_arch_of_not_cfg hcfg]
  | true =>
    cases i with
    | cfg tb base xb mine sg => exact unitStep_cfg_eq ar _ x tb base xb mine sg
    | _ => cases hcfg

end Sys2Proof.Machine
end

section
/-! SUPPORT. The decoder and the encoder of commands: the opcode map, the operand forms, and the
fields of the configuration word (30_encoding.md rules R53 to R56, R60 and R63). -/

namespace Sys2Proof.Machine

/-! ### The opcode map -/

/-- Every opcode is that of some command: the opcode map has no gap (R53, R54, R61). -/
theorem exists_opcode_eq (op : OpWord) : ∃ i : Instr, i.opcode = op :=
  ⟨decode ⟨op, 0#64, 0#64⟩, by revert op; decide⟩

/-- `OpcodeSelects` for the commands together. -/
theorem opcodeSelects (i : Instr) : Laws.OpcodeSelects.Statement i := by
  cases i with
  | reserved0 => exact Laws.OpcodeSelects.reserved0
  | cfg tb base xb mine sg => exact Laws.OpcodeSelects.cfg tb base xb mine sg
  | rdcfg => exact Laws.OpcodeSelects.rdcfg
  | maxv => exact Laws.OpcodeSelects.maxv
  | minv => exact Laws.OpcodeSelects.minv
  | enc w => exact Laws.OpcodeSelects.enc w
  | dec x => exact Laws.OpcodeSelects.dec x
  | abs x => exact Laws.OpcodeSelects.abs x
  | tocmp x => exact Laws.OpcodeSelects.tocmp x
  | frcmp u => exact Laws.OpcodeSelects.frcmp u
  | denc last x => exact Laws.OpcodeSelects.denc last x
  | ddec last delta => exact Laws.OpcodeSelects.ddec last delta
  | reservedC => exact Laws.OpcodeSelects.reservedC
  | reservedD => exact Laws.OpcodeSelects.reservedD
  | reservedE => exact Laws.OpcodeSelects.reservedE
  | reservedF => exact Laws.OpcodeSelects.reservedF

/-- Decoding keeps the opcode, whatever the operands (R61). -/
theorem decode_opcode (c : Command) : (decode c).opcode = c.op := by
  obtain ⟨op, a, b⟩ := c
  obtain ⟨i, rfl⟩ := exists_opcode_eq op
  exact opcodeSelects i a b

/-! ### The operand forms -/

/-- A container placed on a bus is read back (R55, R59). -/
@[simp] theorem containerOf_zext64 (x : Code) : containerOf (zext64 x) = x := by
  rw [containerOf, zext64, BitVec.extractLsb'_setWidth_of_le (by omega), BitVec.extractLsb'_eq_self]

theorem fitsByte_iff {n : Nat} : fitsByte n = true ↔ n < 256 := decide_eq_true_iff

theorem fitsSignedByte_iff {k : Int} : fitsSignedByte k = true ↔ -128 ≤ k ∧ k ≤ 127 := by
  simp [fitsSignedByte]

theorem fitsSigned64_iff {k : Int} :
    fitsSigned64 k = true ↔ -9223372036854775808 ≤ k ∧ k ≤ 9223372036854775807 := by
  simp [fitsSigned64]

/-- A delta that fits its word is read back (R55, R63). -/
theorem sint64_sext64 {k : Int} (h : fitsSigned64 k = true) : sint64 (sext64 k) = k := by
  rw [fitsSigned64_iff] at h
  exact BitVec.toInt_ofInt_eq_self (by omega) (by omega) (by omega)

theorem fitsByte_toNat (v : BitVec 8) : fitsByte v.toNat = true := fitsByte_iff.mpr v.isLt

theorem fitsSignedByte_toInt (v : BitVec 8) : fitsSignedByte v.toInt = true :=
  fitsSignedByte_iff.mpr ⟨BitVec.le_toInt v, Int.le_of_lt_add_one (BitVec.toInt_lt (x := v))⟩

theorem fitsSigned64_sint64 (w : Word64) : fitsSigned64 (sint64 w) = true :=
  fitsSigned64_iff.mpr ⟨BitVec.le_toInt w, Int.le_of_lt_add_one (BitVec.toInt_lt (x := w))⟩

/-! ### The configuration word -/

/-- The descriptor in bits [32:0] of a word, where the configuration word (R56) and the status word
(R57) both have it. -/
def wordDesc (a : Word64) : Desc :=
  ⟨a.extractLsb' 0 8, a.extractLsb' 8 8, a.extractLsb' 16 8, a.extractLsb' 24 8, a.getLsbD 32⟩

/-- CFG reads the fields of `wordDesc` (R56). -/
theorem decode_cfg (a b : Word64) :
    decode ⟨0x1#4, a, b⟩ = .cfg (wordDesc a).tb.toNat (wordDesc a).base.toNat
      (wordDesc a).xb.toNat (wordDesc a).mine.toInt (wordDesc a).sg := rfl

/-- The fields of a descriptor, as numbers, make that descriptor (R70). -/
theorem descOf_toNat (d : Desc) :
    descOf d.tb.toNat d.base.toNat d.xb.toNat d.mine.toInt d.sg = d := by
  simp [descOf]

/-- Bits [32:0] of a word are the fields of its descriptor, side by side. -/
theorem extractLsb'_low_eq (a : Word64) :
    a.extractLsb' 0 33 = BitVec.ofBool (wordDesc a).sg ++ (wordDesc a).mine ++ (wordDesc a).xb ++
      (wordDesc a).base ++ (wordDesc a).tb := by
  have hsg : BitVec.ofBool (a.getLsbD 32) = a.extractLsb' 32 1 := by
    ext i hi
    simp [Nat.lt_one_iff.mp hi]
  simp only [wordDesc, hsg]
  iterate 4 rw [BitVec.extractLsb'_append_extractLsb'_eq_extractLsb' (by rfl)]

/-- Two words hold the same descriptor exactly when they agree on bits [32:0]. -/
theorem wordDesc_eq_iff {a a' : Word64} :
    wordDesc a = wordDesc a' ↔ a.extractLsb' 0 33 = a'.extractLsb' 0 33 := by
  constructor
  · intro h
    rw [extractLsb'_low_eq, h, ← extractLsb'_low_eq]
  · intro h
    have hfield (start len : Nat) (hle : start + len ≤ 33) :
        a.extractLsb' start len = a'.extractLsb' start len := by
      rw [← BitVec.extractLsb'_extractLsb'_of_le hle, h, BitVec.extractLsb'_extractLsb'_of_le hle]
    rw [wordDesc, wordDesc, BitVec.getLsbD_eq_extractLsb', BitVec.getLsbD_eq_extractLsb',
      hfield 0 8 (by omega), hfield 8 8 (by omega), hfield 16 8 (by omega),
      hfield 24 8 (by omega), hfield 32 1 (by omega)]

/-- A word laid out as R56 and R57 do holds the descriptor it is made of, whatever its high bits. -/
theorem wordDesc_append (high : BitVec 31) (d : Desc) :
    wordDesc (high ++ BitVec.ofBool d.sg ++ d.mine ++ d.xb ++ d.base ++ d.tb) = d := by
  obtain ⟨tb, base, xb, mine, sg⟩ := d
  rw [wordDesc, Desc.mk.injEq]
  refine ⟨BitVec.extractLsb'_append_eq_right, ?_, ?_, ?_, ?_⟩
  · rw [BitVec.extractLsb'_append_eq_of_le (by omega)]
    exact BitVec.extractLsb'_append_eq_right
  · iterate 2 rw [BitVec.extractLsb'_append_eq_of_le (by omega)]
    exact BitVec.extractLsb'_append_eq_right
  · iterate 3 rw [BitVec.extractLsb'_append_eq_of_le (by omega)]
    exact BitVec.extractLsb'_append_eq_right
  · iterate 5 rw [BitVec.getLsbD_append]
    simp

/-- The assembler's configuration word holds the operands of the CFG (R56, R63). -/
theorem wordDesc_cfgWord (tb base xb : Nat) (mine : Int) (sg : Bool) :
    wordDesc (cfgWord tb base xb mine sg) = descOf tb base xb mine sg :=
  wordDesc_append 0#31 (descOf tb base xb mine sg)

/-- The status word holds the descriptor of the unit (R57). -/
theorem wordDesc_statusWord (x : Arch) : wordDesc (statusWord x) = x.desc :=
  wordDesc_append _ x.desc

/-- A configuration word whose operands fit their fields is read back (R56, R63). -/
theorem decode_cfgWord {tb base xb : Nat} {mine : Int} (sg : Bool) (htb : fitsByte tb = true)
    (hbase : fitsByte base = true) (hxb : fitsByte xb = true) (hmine : fitsSignedByte mine = true)
    (b : Word64) :
    decode ⟨0x1#4, cfgWord tb base xb mine sg, b⟩ = .cfg tb base xb mine sg := by
  rw [fitsByte_iff] at htb hbase hxb
  rw [fitsSignedByte_iff] at hmine
  rw [decode_cfg, wordDesc_cfgWord]
  simp only [descOf, BitVec.toNat_ofNat, Instr.cfg.injEq]
  exact ⟨Nat.mod_eq_of_lt htb, Nat.mod_eq_of_lt hbase, Nat.mod_eq_of_lt hxb,
    BitVec.toInt_ofInt_eq_self (by omega) (by omega) (by omega), trivial⟩

/-! ### CFG and the status word -/

/-- CFG_VALID = 1 after a CFG means that its descriptor was written (R72, R73). -/
theorem execCfg_arch_of_valid {d : Desc} {s t : State}
    (hexec : exec (.cfg d.tb.toNat d.base.toNat d.xb.toNat d.mine.toInt d.sg) s = .next t)
    (hvalid : t.arch.cfgValid = true) : t.arch = configuredArch d := by
  obtain rfl := Host.Outcome.next.inj ((execCfg_eq _ _ _ _ _ s).symm.trans hexec)
  rw [descOf_toNat] at hvalid ⊢
  split at hvalid
  · rw [if_pos ‹_›]; rfl
  · cases hvalid

end Sys2Proof.Machine
end

section
/-! PROOF. The statements about the encoding of commands (30_encoding.md rules R53 to R57, R60 and
R63). -/

namespace Sys2Proof.Machine

/-- Settles O12: the opcode selects the command, and each operand form is read back. -/
theorem decodeEncodeAgree : Obligations.DecodeEncodeAgree := by
  intro i hwf
  cases i with
  | cfg tb base xb mine sg =>
    simp only [Instr.wellFormed, Bool.and_eq_true] at hwf
    obtain ⟨⟨⟨htb, hbase⟩, hxb⟩, hmine⟩ := hwf
    exact decode_cfgWord sg htb hbase hxb hmine _
  | dec x => exact congrArg Instr.dec (containerOf_zext64 x)
  | abs x => exact congrArg Instr.abs (containerOf_zext64 x)
  | tocmp x => exact congrArg Instr.tocmp (containerOf_zext64 x)
  | frcmp u => exact congrArg Instr.frcmp (containerOf_zext64 u)
  | denc last x => exact congrArg₂ Instr.denc (containerOf_zext64 last) (containerOf_zext64 x)
  | ddec last delta => exact congrArg₂ Instr.ddec (containerOf_zext64 last) (sint64_sext64 hwf)
  | enc | reserved0 | rdcfg | maxv | minv | reservedC | reservedD | reservedE | reservedF => rfl

/-- Settles O13: the opcode map has no gap, and a field of a word is in the range of its width. -/
theorem everyTripleDecodes : Obligations.EveryTripleDecodes := by
  intro c
  refine ⟨?_, decode_opcode c⟩
  obtain ⟨op, a, b⟩ := c
  obtain ⟨i, rfl⟩ := exists_opcode_eq op
  cases i with
  | cfg =>
    simp only [Instr.opcode, decode_cfg, Instr.wellFormed, fitsByte_toNat, fitsSignedByte_toInt,
      Bool.and_self]
  | ddec => exact fitsSigned64_sint64 b
  | enc | dec | abs | tocmp | frcmp | denc | reserved0 | rdcfg | maxv | minv | reservedC | reservedD
  | reservedE | reservedF => rfl

/-- Settles O14: each operand form is a function of the bits it reads. -/
theorem ignoredBitsHaveNoEffect : Obligations.IgnoredBitsHaveNoEffect := by
  rintro ⟨op, a, b⟩ ⟨_, a', b'⟩ rfl hcfg henc hcontainer hdenc hddec
  obtain ⟨i, rfl⟩ := exists_opcode_eq op
  cases i with
  | cfg =>
    have hdesc : wordDesc a = wordDesc a' := wordDesc_eq_iff.mpr (hcfg rfl)
    simp only [Instr.opcode, decode_cfg, hdesc]
  | enc => exact congrArg Instr.enc (henc rfl)
  | dec => exact congrArg Instr.dec (hcontainer (by simp [Instr.opcode]))
  | abs => exact congrArg Instr.abs (hcontainer (by simp [Instr.opcode]))
  | tocmp => exact congrArg Instr.tocmp (hcontainer (by simp [Instr.opcode]))
  | frcmp => exact congrArg Instr.frcmp (hcontainer (by simp [Instr.opcode]))
  | denc => exact congrArg₂ Instr.denc (hcontainer (by simp [Instr.opcode])) (hdenc rfl)
  | ddec =>
    exact congrArg₂ Instr.ddec (hcontainer (by simp [Instr.opcode])) (congrArg sint64 (hddec rfl))
  | reserved0 | rdcfg | maxv | minv | reservedC | reservedD | reservedE | reservedF => rfl

/-- Settles O23: CFG writes the descriptor of the word's low bits, and the status word has it
there. -/
theorem rdcfgEchoesCfgWord : Obligations.RdcfgEchoesCfgWord := by
  intro s t a b hexec hvalid
  rw [decode_cfg] at hexec
  refine ⟨statusWord t.arch, rfl, wordDesc_eq_iff.mp ?_⟩
  rw [wordDesc_statusWord, execCfg_arch_of_valid hexec hvalid, configuredArch]

/-- Settles O15: the six triples are closed terms, which the decoder evaluates. -/
theorem sampleWordsDecode : Obligations.SampleWordsDecode := by
  unfold Obligations.SampleWordsDecode
  decide

end Sys2Proof.Machine
end

section
/-! PROOF. The statements about the ports at one edge: the command it accepts and the response it
transfers (30_encoding.md rules R51 and R52, 70_reset_and_hazards.md rules R164 and R165). -/

namespace Sys2Proof.Machine

/-- Settles O5: the edge accepts the command, and `settle` is about the other ports alone. -/
theorem stepRunsDecodedCommand : Obligations.StepRunsDecodedCommand := by
  rintro s i hrst hvalid hroom rfl -
  exact ⟨step_of_accepts hrst ((accepts_iff hrst).mpr ⟨hvalid, hroom⟩), rfl, rfl, rfl, rfl, rfl⟩

/-- A command whose latency has passed, the oldest in flight, has its response on offer (R165). -/
theorem offered_of_outstanding {s : State} {r : Response} {ps : List Pending}
    (h : s.outstanding = ⟨r, 0⟩ :: ps) : s.offered = some r := by
  simp [State.offered, h]

/-- Without reset a response is transferred exactly when it is on offer and the host is ready
(R52). -/
theorem transfers_eq {s : State} (hrst : s.edge.rst = false) :
    s.transfers = (s.offered.isSome && s.edge.rspReady) := by
  simp [State.transfers, State.rspValid, hrst]

/-- What the accepted command, if any, adds to `settle`: nothing delivered, and nothing in flight
but behind the others (R165). -/
theorem step_settle_append {s t : State} (hrst : s.edge.rst = false) (hstep : step s = .next t) :
    t.delivered = s.settle.delivered ∧ ∃ ps, t.outstanding = s.settle.outstanding ++ ps := by
  rcases step_cases hstep with ⟨hrst', -⟩ | ⟨-, -, hexec⟩ | ⟨-, -, rfl⟩
  · cases hrst.symm.trans hrst'
  · obtain ⟨x, r, hx, -⟩ := exec_cases (decode s.edge.req) s.settle
    obtain rfl : (s.settle.withArch x).push r = t := Host.Outcome.next.inj (hx.symm.trans hexec)
    exact ⟨rfl, _, rfl⟩
  · exact ⟨rfl, [], (List.append_nil _).symm⟩

/-- A response on offer that is not transferred stays the oldest in flight, its latency passed. -/
theorem settle_outstanding_of_held {s : State} {r : Response} (hoffered : s.offered = some r)
    (hheld : s.transfers = false) : ∃ ps, s.settle.outstanding = ⟨r, 0⟩ :: ps := by
  obtain ⟨ps, hps⟩ := offered_eq_some hoffered
  exact ⟨tick ps, by simp [hheld, hps, tick]⟩

/-- Settles O8: what is delivered is a matter of `settle` alone, and a new response goes behind the
one on offer. -/
theorem responseHandshake : Obligations.ResponseHandshake := by
  intro s t hrst hstep
  obtain ⟨hdelivered, new, hnew⟩ := step_settle_append hrst hstep
  rw [State.settle_delivered, transfers_eq hrst] at hdelivered
  refine ⟨fun r hoffered hready => ⟨?_, ?_⟩, fun r hoffered hready => ?_, fun hnone => ?_⟩
  · have hheld : s.transfers = false := by simp [transfers_eq hrst, hready]
    obtain ⟨ps, hps⟩ := settle_outstanding_of_held hoffered hheld
    exact offered_of_outstanding (ps := ps ++ new) (by rw [hnew, hps, List.cons_append])
  · simpa [hready] using hdelivered
  · simpa [hoffered, hready] using hdelivered
  · simpa [hnone] using hdelivered

end Sys2Proof.Machine
end

section
/-! SUPPORT. The descriptor commands: what a CFG with legal fields writes, and the fields of the status
word above the descriptor (30_encoding.md rule R57, 40_descriptor.md rules R70 and R72). -/

namespace Sys2Proof.Machine

/-! ### CFG -/

/-- Operands of CFG that fit their fields are the values the DESC fields then hold (R56, R70). -/
theorem descOf_fields {tb base xb : Nat} {mine : Int} {sg : Bool}
    (hwf : (Instr.cfg tb base xb mine sg).wellFormed = true) :
    (descOf tb base xb mine sg).tb.toNat = tb ∧ (descOf tb base xb mine sg).base.toNat = base ∧
      (descOf tb base xb mine sg).xb.toNat = xb ∧ (descOf tb base xb mine sg).mine.toInt = mine := by
  simp only [Instr.wellFormed, Bool.and_eq_true, fitsByte_iff, fitsSignedByte_iff] at hwf
  obtain ⟨⟨⟨htb, hbase⟩, hxb⟩, hmine⟩ := hwf
  exact ⟨Nat.mod_eq_of_lt htb, Nat.mod_eq_of_lt hbase, Nat.mod_eq_of_lt hxb,
    BitVec.toInt_ofInt_eq_self (by omega) (by omega) (by omega)⟩

/-- A CFG whose fields make a legal descriptor writes it, and answers OK with data 0 (R70, R72). -/
theorem execCfg_of_legal {tb base xb : Nat} {mine : Int} {sg : Bool}
    (hlegal : Desc.Legal (descOf tb base xb mine sg)) (s : State) :
    exec (.cfg tb base xb mine sg) s =
      .next ((s.withArch (configuredArch (descOf tb base xb mine sg))).push ⟨.ok, 0#64⟩) := by
  refine (execCfg_eq tb base xb mine sg s).trans ?_
  rw [if_pos ((validateDesc_eq_zero_iff _).mpr hlegal)]

/-! ### The status word -/

/-- Field M of the status word: the mantissa width of a valid descriptor, else 0 (R57). -/
def statusM (x : Arch) : BitVec 8 :=
  if x.cfgValid then x.desc.tb - x.desc.xb - (BitVec.ofBool x.desc.sg).setWidth 8 else 0#8

/-- Bits [63:33] of the status word: all but the descriptor (R57). -/
def statusHigh (x : Arch) : BitVec 31 :=
  0#12 ++ x.lastCause ++ BitVec.ofBool x.cfgValid ++ statusM x ++ 0#7

theorem statusWord_eq (x : Arch) :
    statusWord x = statusHigh x ++ BitVec.ofBool x.desc.sg ++ x.desc.mine ++ x.desc.xb ++
      x.desc.base ++ x.desc.tb := rfl

/-- What stands above the descriptor in the status word, wherever it begins and ends. -/
theorem statusWord_extractLsb'_high (x : Arch) {start len : Nat} (h : 33 ≤ start) :
    (statusWord x).extractLsb' start len = (statusHigh x).extractLsb' (start - 33) len := by
  rw [statusWord_eq]
  iterate 5 rw [BitVec.extractLsb'_append_eq_of_le (by omega)]
  rfl

theorem statusHigh_zero_low (x : Arch) : (statusHigh x).extractLsb' 0 7 = 0#7 :=
  BitVec.extractLsb'_append_eq_right

theorem statusHigh_m (x : Arch) : (statusHigh x).extractLsb' 7 8 = statusM x := by
  rw [statusHigh, BitVec.extractLsb'_append_eq_of_le (by omega)]
  exact BitVec.extractLsb'_append_eq_right

theorem statusHigh_cfgValid (x : Arch) :
    (statusHigh x).extractLsb' 15 1 = BitVec.ofBool x.cfgValid := by
  rw [statusHigh]
  iterate 2 rw [BitVec.extractLsb'_append_eq_of_le (by omega)]
  exact BitVec.extractLsb'_append_eq_right

theorem statusHigh_lastCause (x : Arch) : (statusHigh x).extractLsb' 16 3 = x.lastCause := by
  rw [statusHigh]
  iterate 3 rw [BitVec.extractLsb'_append_eq_of_le (by omega)]
  exact BitVec.extractLsb'_append_eq_right

theorem statusHigh_zero_high (x : Arch) : (statusHigh x).extractLsb' 19 12 = 0#12 := by
  rw [statusHigh]
  iterate 4 rw [BitVec.extractLsb'_append_eq_of_le (by omega)]
  exact BitVec.extractLsb'_eq_self

/-- CFG_VALID is bit 48 of the status word (R57). -/
theorem statusWord_getLsbD_cfgValid (x : Arch) : (statusWord x).getLsbD 48 = x.cfgValid := by
  have h : (statusWord x).extractLsb' 48 1 = BitVec.ofBool x.cfgValid :=
    (statusWord_extractLsb'_high x (by omega)).trans (statusHigh_cfgValid x)
  rw [BitVec.getLsbD_eq_extractLsb', h]
  cases x.cfgValid <;> rfl

theorem statusM_toNat {x : Arch} (hvalid : x.cfgValid = true) (hlegal : Desc.Legal x.desc) :
    (statusM x).toNat = mantissaBits x.desc := by
  have hsum := hlegal.fields_add
  have hle := hlegal.tb_le
  have hsg : ((BitVec.ofBool x.desc.sg).setWidth 8).toNat = x.desc.sg.toNat := by
    cases x.desc.sg <;> rfl
  rw [statusM, if_pos hvalid]
  simp only [BitVec.toNat_sub, hsg]
  omega

theorem statusM_of_not_valid {x : Arch} (h : x.cfgValid = false) : statusM x = 0#8 := by
  simp [statusM, h]

end Sys2Proof.Machine
end

section
/-! SUPPORT. The magnitude of the largest code, under both ARITH values: bounds on each operation of
its formula keep it positive, above the subnormals, and short of overflow (00_scope.md rule R11,
10_state.md rules R27, R28 and R30). -/

namespace Sys2Proof.Machine

/-! ### Rounding changes little -/

/-- The least magnitude of a normal binary64 word (R10). -/
def leastNormal : ℚ := 2 ^ (-1022 : ℤ)

theorem leastNormal_pos : 0 < leastNormal := two_zpow_pos _

theorem mul_leastNormal_eq : 1024 * leastNormal = 2 ^ (-1012 : ℤ) := by
  rw [leastNormal, two_zpow_eq_mul (show (-1012 : ℤ) = 10 + -1022 by rfl)]
  norm_num

theorem mul_leastNormal_le_one : 1024 * leastNormal ≤ 1 := by
  rw [mul_leastNormal_eq]
  exact zpow_le_one_of_nonpos₀ one_le_two (by omega)

/-- Above the subnormals `rne64` is off by at most half a unit in 2^52. -/
theorem abs_rne64_sub_le {q : ℚ} (hq : leastNormal ≤ q) : |rne64 q - q| ≤ q / 2 ^ 53 := by
  have hpos := leastNormal_pos.trans_le hq
  have hulp : 2 ^ 52 * 2 ^ ulpExp q ≤ q := by
    by_cases hu : ulpExp q = -1074
    · rw [hu, ← zpow_ofNat, ← two_zpow_eq_mul (show (-1022 : ℤ) = 52 + -1074 by rfl)]
      exact hq
    · exact mul_ulp_le hpos hu
  have hhalf := mul_le_mul_of_nonneg_right (abs_roundEven_sub_le (q / 2 ^ ulpExp q))
    (two_zpow_pos (ulpExp q)).le
  rw [rne64_eq, abs_of_pos hpos, abs_mul_ulp_sub]
  linarith

/-- Under both ARITH values an operation is off by at most a sixteenth, with room to spare. -/
theorem round_mem_Icc (ar : Arith) {q l u : ℚ} (hl : leastNormal ≤ l) (hq : q ∈ Set.Icc l u) :
    ar.round q ∈ Set.Icc (15 / 16 * l) (17 / 16 * u) := by
  obtain ⟨hlq, hqu⟩ := hq
  have hpos := leastNormal_pos.trans_le hl
  have herr : |ar.round q - q| ≤ q / 2 ^ 53 := by
    cases ar with
    | exact => rw [Arith.round, sub_self, abs_zero]; linarith
    | binary64 => exact abs_rne64_sub_le (hl.trans hlq)
  obtain ⟨hlo, hhi⟩ := abs_le.mp herr
  constructor <;> linarith

theorem mul_mem_Icc {x y l u l' u' : ℚ} (hl : 0 ≤ l) (hl' : 0 ≤ l') (hx : x ∈ Set.Icc l u)
    (hy : y ∈ Set.Icc l' u') : x * y ∈ Set.Icc (l * l') (u * u') :=
  ⟨mul_le_mul hx.1 hy.1 hl' (hl.trans hx.1),
    mul_le_mul hx.2 hy.2 (hl'.trans hy.1) (hl.trans (hx.1.trans hx.2))⟩

/-! ### The scale table -/

theorem Desc.Legal.topIndex_le {d : Desc} (h : Desc.Legal d) : topIndex d ≤ 15 := by
  obtain ⟨_, _, _, hxb, _⟩ := h
  have : 2 ^ d.xb.toNat ≤ 2 ^ 4 := Nat.pow_le_pow_right two_pos hxb
  unfold topIndex exponentMask
  omega

theorem Desc.Legal.two_le_base {d : Desc} (h : Desc.Legal d) : (2 : ℚ) ≤ d.base.toNat := by
  obtain ⟨_, _, hbase, _⟩ := h
  rcases hbase with hb | hb <;> rw [hb] <;> norm_num

/-- The exact power that scale entry i stands for (R27). -/
def basePow (d : Desc) (i : Nat) : ℚ := (d.base.toNat : ℚ) ^ (d.mine.toInt + i)

/-- The exponents of R22 keep every power far from both ends of the binary64 range. -/
theorem Desc.Legal.basePow_mem_Icc {d : Desc} (h : Desc.Legal d) {i : Nat} (hi : i ≤ 15) :
    basePow d i ∈ Set.Icc (1024 * leastNormal) (2 ^ 23) := by
  have h1 : (1 : ℚ) ≤ d.base.toNat := one_le_two.trans h.two_le_base
  obtain ⟨_, _, hbase, _, hlo, hhi, _⟩ := h
  constructor
  · calc 1024 * leastNormal = 2 ^ (-1012 : ℤ) := mul_leastNormal_eq
      _ ≤ 2 ^ (-256 : ℤ) := zpow_le_zpow_right₀ one_le_two (by omega)
      _ ≤ (d.base.toNat : ℚ) ^ (-128 : ℤ) := by
        rcases hbase with hb | hb <;> rw [hb] <;> norm_num
      _ ≤ basePow d i := zpow_le_zpow_right₀ h1 (by omega)
  · calc basePow d i ≤ (d.base.toNat : ℚ) ^ (14 : ℤ) := zpow_le_zpow_right₀ h1 (by omega)
      _ ≤ 2 ^ 23 := by rcases hbase with hb | hb <;> rw [hb] <;> norm_num

theorem Desc.Legal.basePow_pos {d : Desc} (h : Desc.Legal d) (i : Nat) : 0 < basePow d i :=
  zpow_pos (two_pos.trans_le h.two_le_base) _

theorem Desc.Legal.basePow_zero_le {d : Desc} (h : Desc.Legal d) (i : Nat) :
    basePow d 0 ≤ basePow d i :=
  zpow_le_zpow_right₀ (one_le_two.trans h.two_le_base) (by omega)

/-- MINE is negative, so the least scale entry is at most a half. -/
theorem Desc.Legal.basePow_zero_le_half {d : Desc} (h : Desc.Legal d) : basePow d 0 ≤ 1 / 2 := by
  have h2 := h.two_le_base
  obtain ⟨_, _, _, _, _, hneg, _⟩ := h
  calc basePow d 0 ≤ (d.base.toNat : ℚ) ^ (-1 : ℤ) :=
        zpow_le_zpow_right₀ (one_le_two.trans h2) (by omega)
    _ = 1 / d.base.toNat := by rw [zpow_neg_one, one_div]
    _ ≤ 1 / 2 := one_div_le_one_div_of_le two_pos h2

/-- A scale entry is its power, or that power rounded once (R27). -/
theorem scale_cases (ar : Arith) (d : Desc) (i : Nat) :
    scale ar d i = basePow d i ∨ scale ar d i = ar.round (basePow d i) := by
  rw [basePow, ← intPow_eq_zpow]
  cases ar with
  | exact => exact .inl rfl
  | binary64 =>
    by_cases hb : d.base = 2#8
    · exact .inl (by simp [scale, hb])
    · exact .inr (by simp [scale, hb, Arith.round])

theorem Desc.Legal.scale_mem_Icc {d : Desc} (h : Desc.Legal d) (ar : Arith) {i : Nat}
    (hi : i ≤ 15) : scale ar d i ∈ Set.Icc (15 / 16 * basePow d i) (17 / 16 * basePow d i) := by
  obtain ⟨hlow, -⟩ := h.basePow_mem_Icc hi
  have hpos := h.basePow_pos i
  rcases scale_cases ar d i with he | he
  · rw [he]
    constructor <;> linarith
  · rw [he]
    exact round_mem_Icc ar (by linarith) (Set.left_mem_Icc.mpr le_rfl)

theorem Desc.Legal.affineA_mem_Icc {d : Desc} (h : Desc.Legal d) (ar : Arith) :
    affineA ar d ∈ Set.Icc (15 / 16 * basePow d 0) (17 / 16 * basePow d 0) :=
  h.scale_mem_Icc ar (Nat.zero_le 15)

theorem Desc.Legal.affineC_mem_Icc {d : Desc} (h : Desc.Legal d) (ar : Arith) :
    affineC ar d ∈ Set.Icc (3 / 4) (5 / 2) := by
  have hone := mul_leastNormal_le_one
  obtain ⟨halo, hahi⟩ := h.affineA_mem_Icc ar
  have hpow := h.basePow_pos 0
  have hhalf := h.basePow_zero_le_half
  obtain ⟨hmlo, hmhi⟩ : oneMinusA ar d ∈ Set.Icc (15 / 16 * (15 / 32)) (17 / 16 * 1) :=
    round_mem_Icc ar (by linarith) ⟨by linarith, by linarith⟩
  have hpos : 0 < oneMinusA ar d := by linarith
  have hc : affineC ar d ∈ Set.Icc (15 / 16 * (16 / 17)) (17 / 16 * (16 / 7)) := by
    refine round_mem_Icc ar (by linarith) ⟨?_, ?_⟩
    · rw [le_div_iff₀ hpos]
      linarith
    · rw [div_le_iff₀ hpos]
      linarith
  exact Set.Icc_subset_Icc (by norm_num) (by norm_num) hc

/-! ### The magnitude of the largest code -/

/-- The largest mantissa over the step (R26). -/
theorem Desc.Legal.maxFraction_mem_Icc {d : Desc} (h : Desc.Legal d) :
    (mantissaMask d : ℚ) / stepScale d ∈ Set.Icc (1 / 2) 2 := by
  have hM : mantissaBits d ≠ 0 := Nat.one_le_iff_ne_zero.mp h.mantissaBits_pos
  have htwo : (2 : ℚ) ≤ 2 ^ mantissaBits d := le_self_pow₀ one_le_two hM
  have hstep : (stepScale d : ℚ) = 2 ^ mantissaBits d ∨
      2 * (stepScale d : ℚ) = 2 ^ mantissaBits d := by
    unfold stepScale
    split
    · exact .inl (by norm_num)
    · exact .inr (by rw [Nat.cast_pow, Nat.cast_ofNat, mul_pow_sub_one hM])
  have hpos : (0 : ℚ) < stepScale d := by rcases hstep with hs | hs <;> linarith
  rw [mantissaMask, Nat.cast_sub Nat.one_le_two_pow, Nat.cast_pow, Nat.cast_ofNat, Nat.cast_one,
    Set.mem_Icc, le_div_iff₀ hpos, div_le_iff₀ hpos]
  rcases hstep with hs | hs <;> constructor <;> linarith

/-- The significand of the largest mantissa, `1 ⊕ (m ⊘ step)` (R100). -/
def maxSig (ar : Arith) (d : Desc) : ℚ := ar.add 1 (ar.div (mantissaMask d) (stepScale d))

theorem Desc.Legal.maxSig_mem_Icc {d : Desc} (h : Desc.Legal d) (ar : Arith) :
    maxSig ar d ∈ Set.Icc (11 / 8) (27 / 8) := by
  have hone := mul_leastNormal_le_one
  obtain ⟨hflo, hfhi⟩ : ar.div (mantissaMask d) (stepScale d) ∈
      Set.Icc (15 / 16 * (1 / 2)) (17 / 16 * 2) :=
    round_mem_Icc ar (by linarith) h.maxFraction_mem_Icc
  have hsig : maxSig ar d ∈ Set.Icc (15 / 16 * (47 / 32)) (17 / 16 * (25 / 8)) :=
    round_mem_Icc ar (by linarith) ⟨by linarith, by linarith⟩
  exact Set.Icc_subset_Icc (by norm_num) (by norm_num) hsig

/-- `inner ⊖ a` of the largest code (R100). -/
def maxInnerSub (ar : Arith) (d : Desc) : ℚ :=
  ar.sub (ar.mul (maxSig ar d) (scale ar d (topIndex d))) (affineA ar d)

/-- The significand keeps `inner` well above `a`, whatever the rounding. -/
theorem Desc.Legal.maxInnerSub_mem_Icc {d : Desc} (h : Desc.Legal d) (ar : Arith) :
    maxInnerSub ar d ∈
      Set.Icc (1 / 10 * basePow d (topIndex d)) (17 / 4 * basePow d (topIndex d)) := by
  obtain ⟨hlow, -⟩ := h.basePow_mem_Icc h.topIndex_le
  have hpos := h.basePow_pos (topIndex d)
  have hpos0 := h.basePow_pos 0
  have hle := h.basePow_zero_le (topIndex d)
  obtain ⟨halo, hahi⟩ := h.affineA_mem_Icc ar
  obtain ⟨hilo, hihi⟩ : ar.mul (maxSig ar d) (scale ar d (topIndex d)) ∈ Set.Icc _ _ :=
    round_mem_Icc ar (by linarith) (mul_mem_Icc (by norm_num) (by linarith) (h.maxSig_mem_Icc ar)
      (h.scale_mem_Icc ar h.topIndex_le))
  have hsub : maxInnerSub ar d ∈ Set.Icc (15 / 16 * (1 / 8 * basePow d (topIndex d)))
      (17 / 16 * (4 * basePow d (topIndex d))) :=
    round_mem_Icc ar (by linarith) ⟨by linarith, by linarith⟩
  exact Set.Icc_subset_Icc (by linarith) (by linarith) hsub

theorem maxValue_eq (ar : Arith) (d : Desc) :
    maxValue ar d = snapToOne ar (ar.mul (maxInnerSub ar d) (affineC ar d)) := rfl

theorem snapToOne_cases (ar : Arith) (r : ℚ) : snapToOne ar r = 1 ∨ snapToOne ar r = r := by
  unfold snapToOne
  split
  · exact .inl rfl
  · exact .inr rfl

/-- max_value is 1, by the snap, or the result of the formula's last operation (R30, R100). -/
theorem Desc.Legal.maxValue_cases {d : Desc} (h : Desc.Legal d) (ar : Arith) :
    maxValue ar d = 1 ∨ ∃ y ∈ Set.Icc (2 * leastNormal) (2 ^ 27), maxValue ar d = ar.round y := by
  obtain ⟨hlow, hhigh⟩ := h.basePow_mem_Icc h.topIndex_le
  have hpos := h.basePow_pos (topIndex d)
  have hprod := mul_mem_Icc (by linarith) (by norm_num) (h.maxInnerSub_mem_Icc ar)
    (h.affineC_mem_Icc ar)
  rw [maxValue_eq]
  refine (snapToOne_cases ar _).imp_right fun he => ⟨_, ?_, he⟩
  exact Set.Icc_subset_Icc (by linarith) (by linarith) hprod

/-! ### The word of max_value -/

theorem canonical_one : ∃ n k, Canonical64 n k ∧ (1 : ℚ) = n * 2 ^ k :=
  ⟨2 ^ 52, -52, ⟨by norm_num, by norm_num, by norm_num, .inr le_rfl⟩, by norm_num⟩

/-- Up to a bound far below overflow, rounding gives a positive representable magnitude. -/
theorem rne64_pos_canonical {q : ℚ} (hq : q ∈ Set.Icc leastNormal (2 ^ 28)) :
    0 < rne64 q ∧ ∃ n k, Canonical64 n k ∧ rne64 q = n * 2 ^ k := by
  obtain ⟨hlo, hhi⟩ := hq
  have hl := leastNormal_pos
  obtain ⟨hrlo, -⟩ := round_mem_Icc .binary64 hlo (Set.left_mem_Icc.mpr le_rfl)
  have hpos : 0 < rne64 q := by
    refine lt_of_lt_of_le ?_ hrlo
    linarith
  have hbound : (2 : ℚ) ^ 28 < 2 ^ 1024 - 2 ^ 970 := by
    have hp : (1 : ℚ) ≤ 2 ^ (971 : ℤ) := one_le_zpow₀ one_le_two (by omega)
    rw [overflow_bound]
    generalize (2 : ℚ) ^ (971 : ℤ) = p at hp ⊢
    linarith
  obtain ⟨n, k, hcanon, habs, -⟩ :=
    rne64_canonical (q := q) ((abs_of_pos (hl.trans_le hlo)).trans_lt (hhi.trans_lt hbound))
  exact ⟨hpos, n, k, hcanon, (abs_of_pos hpos).symm.trans habs⟩

/-- What leaves the unit as max_value is positive and representable: under EXACT by the output
rounding, under BINARY64 as 1 or the result of an operation (R77). -/
theorem Desc.Legal.outputMaxValue_canonical {d : Desc} (h : Desc.Legal d) (ar : Arith) :
    0 < outputMagnitude ar (maxValue ar d) ∧
      ∃ n k, Canonical64 n k ∧ outputMagnitude ar (maxValue ar d) = n * 2 ^ k := by
  have hl := leastNormal_pos
  have hone := mul_leastNormal_le_one
  have hcases := h.maxValue_cases ar
  cases ar with
  | exact =>
    refine rne64_pos_canonical ?_
    rcases hcases with he | ⟨y, ⟨hlo, hhi⟩, he⟩
    · rw [he]
      constructor <;> linarith
    · rw [he, Arith.round]
      constructor <;> linarith
  | binary64 =>
    rcases hcases with he | ⟨y, ⟨hlo, hhi⟩, he⟩
    · rw [outputMagnitude, he]
      exact ⟨one_pos, canonical_one⟩
    · rw [outputMagnitude, he]
      exact rne64_pos_canonical ⟨by linarith, by linarith⟩

/-- The MAXV word is positive and finite, and its value is what leaves the unit as max_value. -/
theorem Desc.Legal.maxvWord_spec {d : Desc} (h : Desc.Legal d) (ar : Arith) :
    isNaN (maxvWord ar d) = false ∧ isInf (maxvWord ar d) = false ∧
      f64Sign (maxvWord ar d) = false ∧ 0 < val (maxvWord ar d) ∧
      val (maxvWord ar d) = outputMagnitude ar (maxValue ar d) := by
  obtain ⟨hpos, n, k, hcanon, he⟩ := h.outputMaxValue_canonical ar
  have hval : val (maxvWord ar d) = outputMagnitude ar (maxValue ar d) := by
    rw [maxvWord, he, val_b64 hcanon, if_neg Bool.false_ne_true]
  obtain ⟨hsign, hexp, -, -⟩ := b64_fields hcanon false
  rw [← he] at hsign hexp
  obtain ⟨hnan, hinf⟩ := not_nan_inf_of_exp_lt hexp
  exact ⟨hnan, hinf, hsign, hval ▸ hpos, hval⟩

/-! ### The sign bit of a word -/

/-- The word with bit 63 set and no other. -/
def signBit64 : Word64 := 1#64 <<< 63

theorem f64Exp_or_signBit64 (w : Word64) : f64Exp (w ||| signBit64) = f64Exp w := by
  have hmask : signBit64.extractLsb' 52 11 = 0#11 := by decide
  rw [f64Exp, BitVec.extractLsb'_or, hmask, BitVec.or_zero, f64Exp]

theorem f64Frac_or_signBit64 (w : Word64) : f64Frac (w ||| signBit64) = f64Frac w := by
  have hmask : signBit64.extractLsb' 0 52 = 0#52 := by decide
  rw [f64Frac, BitVec.extractLsb'_or, hmask, BitVec.or_zero, f64Frac]

theorem f64Sign_or_signBit64 (w : Word64) : f64Sign (w ||| signBit64) = true := by
  have hmask : signBit64.getLsbD 63 = true := by decide
  rw [f64Sign, BitVec.getLsbD_or, hmask, Bool.or_true]

/-- Setting the sign bit of a word without sign negates its value (R10). -/
theorem val_or_signBit64 {w : Word64} (h : f64Sign w = false) : val (w ||| signBit64) = -val w := by
  have habs : absVal (w ||| signBit64) = absVal w := by
    rw [absVal, f64Exp_or_signBit64, f64Frac_or_signBit64, absVal]
  rw [val, val, f64Sign_or_signBit64, h, habs, if_pos rfl, if_neg Bool.false_ne_true]

end Sys2Proof.Machine
end

section
/-! PROOF. The statements about the descriptor commands (40_descriptor.md rules R72, R75, R77 and
R78). -/

namespace Sys2Proof.Machine

/-- Settles O20: the fields hold the operands, and the checks of R71 ask for the ranges of R22. -/
theorem cfgSucceeds : Obligations.CfgSucceeds := by
  intro s tb base xb mine sg hwf htb hbase hwidth hxb hmine
  obtain ⟨etb, ebase, exb, emine⟩ := descOf_fields hwf
  have hlow : -128 ≤ (descOf tb base xb mine sg).mine.toInt := BitVec.le_toInt _
  have hsg : (descOf tb base xb mine sg).sg = sg := rfl
  have hlegal : Desc.Legal (descOf tb base xb mine sg) := by
    rw [Desc.Legal, etb, ebase, exb, hsg]
    exact ⟨by omega, htb, hbase, hxb, hlow, by omega, by omega⟩
  exact ⟨_, execCfg_of_legal hlegal s, rfl, rfl, etb, ebase, exb, emine, rfl, hlegal⟩

/-- Settles O22: the descriptor stands in bits [32:0] of the status word, and `statusHigh` above. -/
theorem rdcfgReadsState : Obligations.RdcfgReadsState := by
  intro s
  obtain ⟨htb, hbase, hxb, hmine, hsg⟩ := Desc.mk.inj (wordDesc_statusWord s.arch)
  have hm : (statusWord s.arch).extractLsb' 40 8 = statusM s.arch :=
    (statusWord_extractLsb'_high _ (by omega)).trans (statusHigh_m _)
  refine ⟨statusWord s.arch, rfl, htb, hbase, hxb, hmine, hsg,
    (statusWord_extractLsb'_high _ le_rfl).trans (statusHigh_zero_low _), ?_, fun hinvalid => ?_,
    statusWord_getLsbD_cfgValid _,
    (statusWord_extractLsb'_high _ (by omega)).trans (statusHigh_lastCause _),
    (statusWord_extractLsb'_high _ (by omega)).trans (statusHigh_zero_high _)⟩
  · rintro ⟨hvalid, hlegal⟩
    have hsum := hlegal.fields_add
    rw [hm, statusM_toNat hvalid hlegal]
    omega
  · rw [hm, statusM_of_not_valid hinvalid]

/-- Settles O24: the word of a positive representable magnitude has that value. -/
theorem maxvIsMaxValue : Obligations.MaxvIsMaxValue := by
  rintro s ⟨hvalid, hlegal⟩
  obtain ⟨hnan, hinf, hsign, hpos, hval⟩ := hlegal.maxvWord_spec s.arith
  refine ⟨maxvWord s.arith s.arch.desc, whenConfigured_of_valid hvalid maxvWord, hnan, hinf, hsign,
    hpos, fun harith => ?_, fun harith => ?_⟩
  · rw [hval, harith]
    rfl
  · rw [hval, harith]
    rfl

/-- Settles O25: the MAXV word has no sign, so setting bit 63 negates its value. -/
theorem minvNegatesMaxv : Obligations.MinvNegatesMaxv := by
  rintro s ⟨hvalid, hlegal⟩
  obtain ⟨-, -, hsign, -, -⟩ := hlegal.maxvWord_spec s.arith
  refine ⟨maxvWord s.arith s.arch.desc, minvWord s.arith s.arch.desc,
    whenConfigured_of_valid hvalid maxvWord, whenConfigured_of_valid hvalid minvWord,
    fun hsg => ?_, fun hsg => ?_⟩
  · have hword : minvWord s.arith s.arch.desc = maxvWord s.arith s.arch.desc ||| signBit64 :=
      if_pos hsg
    exact ⟨hword, by rw [hword, val_or_signBit64 hsign]⟩
  · rw [minvWord, hsg]
    rfl

end Sys2Proof.Machine
end

section
/-! SUPPORT. Rounding keeps the order of its arguments and leaves representable magnitudes alone
(00_scope.md rules R11, R12 and R13). -/

namespace Sys2Proof.Machine

/-! ### Rounding to an integer -/

/-- A choice of an integer within one half keeps the order, whatever it does with ties. -/
theorem monotone_of_abs_sub_le_half {f : ℚ → ℤ} (hf : ∀ q, |(f q : ℚ) - q| ≤ 1 / 2) :
    Monotone f := by
  intro x y hxy
  rcases hxy.eq_or_lt with rfl | hlt
  · exact le_rfl
  · obtain ⟨_, hx⟩ := abs_le.mp (hf x)
    obtain ⟨hy, _⟩ := abs_le.mp (hf y)
    have h : (f x : ℚ) < f y + 1 := by linarith
    exact Int.lt_add_one_iff.mp (by exact_mod_cast h)

theorem roundEven_mono : Monotone roundEven := monotone_of_abs_sub_le_half abs_roundEven_sub_le

theorem rha_mono : Monotone rha := monotone_of_abs_sub_le_half abs_rha_sub_le

theorem roundEven_intCast (z : ℤ) : roundEven z = z := by simp [roundEven]

/-- An integer nearer than one half is the one `rha` gives. -/
theorem rha_eq_of_abs_sub_lt {q : ℚ} {z : ℤ} (h : |q - z| < 1 / 2) : rha q = z := by
  obtain ⟨h1, h2⟩ := abs_lt.mp h
  obtain ⟨h3, h4⟩ := abs_le.mp (abs_rha_sub_le q)
  have hlo : (z : ℚ) < rha q + 1 := by linarith
  have hhi : (rha q : ℚ) < z + 1 := by linarith
  have hlo' : z < rha q + 1 := by exact_mod_cast hlo
  have hhi' : rha q < z + 1 := by exact_mod_cast hhi
  omega

/-- Above minus one half `rha` is not negative: ties go away from zero, so the bound is strict. -/
theorem rha_nonneg_of_lt {q : ℚ} (h : -(1 / 2) < q) : 0 ≤ rha q := by
  obtain ⟨h1, _⟩ := abs_le.mp (abs_rha_sub_le q)
  have hlt : (-1 : ℚ) < rha q := by linarith
  have hlt' : -1 < rha q := by exact_mod_cast hlt
  omega

/-- Below an integer and a half `rha` does not pass the integer. -/
theorem rha_le_of_lt {q : ℚ} {z : ℤ} (h : q < z + 1 / 2) : rha q ≤ z := by
  obtain ⟨_, h2⟩ := abs_le.mp (abs_rha_sub_le q)
  have hlt : (rha q : ℚ) < z + 1 := by linarith
  exact Int.lt_add_one_iff.mp (by exact_mod_cast hlt)

/-! ### Rounding to binary64 -/

theorem binade_mono {p q : ℚ} (hp : 0 < p) (h : p ≤ q) : binade p ≤ binade q := by
  have hlt : (2 : ℚ) ^ binade p < 2 ^ (binade q + 1) :=
    (binade_spec hp).1.trans_lt (h.trans_lt (binade_spec (hp.trans_le h)).2)
  exact Int.lt_add_one_iff.mp ((zpow_lt_zpow_iff_right₀ one_lt_two).mp hlt)

theorem ulpExp_mono {p q : ℚ} (hp : 0 < p) (h : p ≤ q) : ulpExp p ≤ ulpExp q :=
  max_le_max (sub_le_sub_right (binade_mono hp h) 52) le_rfl

/-- With one unit in the last place for both, rounding to an integer decides; a larger unit begins
where the smaller one ends. -/
theorem rne64_le_of_pos {p q : ℚ} (hp : 0 < p) (h : p ≤ q) : rne64 p ≤ rne64 q := by
  have hq := hp.trans_le h
  have hlt := lt_mul_ulp hp
  have hfoot := mul_ulp_le hq
  have hmin := le_ulpExp p
  rw [rne64_eq, rne64_eq, abs_of_pos hp, abs_of_pos hq]
  rcases (ulpExp_mono hp h).eq_or_lt with hu | hu
  · rw [hu]
    have hpow := two_zpow_pos (ulpExp q)
    exact mul_le_mul_of_nonneg_right
      (Int.cast_le.mpr (roundEven_mono (div_le_div_of_nonneg_right h hpow.le))) hpow.le
  · generalize ulpExp p = u at *
    generalize ulpExp q = v at *
    have hpu := two_zpow_pos u
    have hpv := two_zpow_pos v
    have hhi : roundEven (p / 2 ^ u) ≤ 2 ^ 53 := by
      rw [← roundEven_intCast (2 ^ 53)]
      refine roundEven_mono ((div_le_iff₀ hpu).mpr ?_)
      push_cast
      exact hlt.le
    have hlo : 2 ^ 52 ≤ roundEven (q / 2 ^ v) := by
      rw [← roundEven_intCast (2 ^ 52)]
      refine roundEven_mono ((le_div_iff₀ hpv).mpr ?_)
      push_cast
      exact hfoot (by omega)
    calc (roundEven (p / 2 ^ u) : ℚ) * 2 ^ u ≤ 2 ^ 53 * 2 ^ u :=
          mul_le_mul_of_nonneg_right (by exact_mod_cast hhi) hpu.le
      _ = 2 ^ 52 * 2 ^ (1 + u) := by rw [zpow_one_add₀ two_ne_zero]; ring
      _ ≤ 2 ^ 52 * 2 ^ v :=
          mul_le_mul_of_nonneg_left (zpow_le_zpow_right₀ one_le_two (by omega)) (by norm_num)
      _ ≤ roundEven (q / 2 ^ v) * 2 ^ v :=
          mul_le_mul_of_nonneg_right (by exact_mod_cast hlo) hpv.le

theorem rne64_mono : Monotone rne64 := by
  intro p q h
  rcases lt_or_ge 0 p with hp | hp
  · exact rne64_le_of_pos hp h
  · rcases lt_or_ge q 0 with hq | hq
    · have hneg := rne64_le_of_pos (neg_pos.mpr hq) (neg_le_neg h)
      rw [rne64_neg, rne64_neg] at hneg
      exact neg_le_neg_iff.mp hneg
    · exact (rne64_nonpos hp).trans (rne64_nonneg hq)

/-- A representable magnitude is its own rounding: its word lies nearest. -/
theorem rne64_of_canonical {n : ℕ} {k : ℤ} (h : Canonical64 n k) :
    rne64 (n * 2 ^ k) = n * 2 ^ k := by
  have hnear := rne64_nearest (n * 2 ^ k) (b64 (n * 2 ^ k) false)
  rw [val_b64 h, if_neg Bool.false_ne_true, sub_self, abs_zero] at hnear
  exact sub_eq_zero.mp (abs_nonpos_iff.mp hnear)

theorem rne64_two_zpow {k : ℤ} (hlo : -1022 ≤ k) (hhi : k ≤ 1023) :
    rne64 (2 ^ k) = 2 ^ k := by
  have hcanon : Canonical64 (2 ^ 52) (k - 52) :=
    ⟨by norm_num, by omega, by omega, .inr le_rfl⟩
  have heq : (2 : ℚ) ^ k = (2 ^ 52 : ℕ) * 2 ^ (k - 52) := by
    rw [two_zpow_eq_mul (show k = 52 + (k - 52) by omega), zpow_ofNat]
    push_cast
    rfl
  rw [heq]
  exact rne64_of_canonical hcanon

/-! ### The operations of the formulas -/

theorem round_mono (ar : Arith) : Monotone ar.round := by
  cases ar with
  | exact => exact monotone_id
  | binary64 => exact rne64_mono

theorem round_zero (ar : Arith) : ar.round 0 = 0 := by
  cases ar with
  | exact => rfl
  | binary64 => simp [Arith.round, rne64]

theorem round_one (ar : Arith) : ar.round 1 = 1 := by
  cases ar with
  | exact => rfl
  | binary64 => simpa [Arith.round] using rne64_two_zpow (k := 0) (by omega) (by omega)

theorem round_nonneg (ar : Arith) {q : ℚ} (h : 0 ≤ q) : 0 ≤ ar.round q :=
  (round_zero ar).symm.le.trans (round_mono ar h)

/-- Above the subnormals an operation is off by at most half a unit in 2^52 (R13). -/
theorem abs_round_sub_le (ar : Arith) {q : ℚ} (h : leastNormal ≤ q) :
    |ar.round q - q| ≤ q / 2 ^ 53 := by
  cases ar with
  | exact =>
    rw [Arith.round, sub_self, abs_zero]
    exact div_nonneg (leastNormal_pos.le.trans h) (by norm_num)
  | binary64 => exact abs_rne64_sub_le h

end Sys2Proof.Machine
end

section
/-! SUPPORT. The derived constants of a legal descriptor as the scalar codec uses them: the scale
table, the step and the boundary (10_state.md rules R26 to R29), and the significands
`1 + m / step` (41_scalar_codec.md rule R100). -/

namespace Sys2Proof.Machine

/-! ### The scale table -/

theorem basePow_succ {d : Desc} (h : Desc.Legal d) (i : Nat) :
    basePow d (i + 1) = d.base.toNat * basePow d i := by
  have hb : (d.base.toNat : ℚ) ≠ 0 := (two_pos.trans_le h.two_le_base).ne'
  rw [basePow, basePow, Nat.cast_succ, ← add_assoc, zpow_add_one₀ hb, mul_comm]

theorem basePow_mono {d : Desc} (h : Desc.Legal d) : Monotone (basePow d) :=
  fun _ _ hij => zpow_le_zpow_right₀ (one_le_two.trans h.two_le_base) (by omega)

theorem scale_exact (d : Desc) (i : Nat) : scale .exact d i = basePow d i :=
  intPow_eq_zpow _ _

/-- Every scale entry is representable, so that rounding leaves it alone (R27). -/
theorem round_scale {d : Desc} (h : Desc.Legal d) (ar : Arith) {i : Nat} (hi : i ≤ 15) :
    ar.round (scale ar d i) = scale ar d i := by
  cases ar with
  | exact => rfl
  | binary64 =>
    by_cases hb : d.base = 2#8
    · obtain ⟨-, -, -, -, hlo, hhi, -⟩ := h
      rw [Arith.round, scale, if_pos hb, intPow_two]
      exact rne64_two_zpow (by omega) (by omega)
    · obtain ⟨hlow, hhigh⟩ := h.basePow_mem_Icc hi
      have hl := leastNormal_pos
      obtain ⟨-, n, k, hcanon, he⟩ :=
        rne64_pos_canonical (q := basePow d i) ⟨by linarith, by linarith⟩
      have hscale : scale .binary64 d i = n * 2 ^ k := by
        rw [← he, scale, if_neg hb, intPow_eq_zpow, basePow]
      rw [hscale]
      exact rne64_of_canonical hcanon

theorem scale_mono {d : Desc} (h : Desc.Legal d) (ar : Arith) : Monotone (scale ar d) := by
  intro i j hij
  have hle := basePow_mono h hij
  cases ar with
  | exact =>
    rw [scale_exact, scale_exact]
    exact hle
  | binary64 =>
    by_cases hb : d.base = 2#8
    · rw [scale, scale, if_pos hb, if_pos hb, intPow_two, intPow_two]
      exact zpow_le_zpow_right₀ one_le_two (by omega)
    · rw [scale, scale, if_neg hb, if_neg hb, intPow_eq_zpow, intPow_eq_zpow]
      exact rne64_mono hle

theorem scale_pos {d : Desc} (h : Desc.Legal d) (ar : Arith) (i : Nat) : 0 < scale ar d i := by
  have hpow := h.basePow_pos 0
  obtain ⟨hlo, -⟩ := h.scale_mem_Icc ar (Nat.zero_le 15)
  refine lt_of_lt_of_le ?_ (scale_mono h ar (Nat.zero_le i))
  linarith

theorem oneMinusA_nonneg {d : Desc} (h : Desc.Legal d) (ar : Arith) : 0 ≤ oneMinusA ar d := by
  obtain ⟨-, hhi⟩ := h.affineA_mem_Icc ar
  have hhalf := h.basePow_zero_le_half
  exact round_nonneg ar (by linarith)

/-! ### The step, the boundary and the significands -/

/-- The largest mantissa is below `step * (b - 1) = 2^M` (R26). -/
theorem stepScale_mul {d : Desc} (h : Desc.Legal d) :
    (stepScale d : ℚ) * (d.base.toNat - 1) = 2 ^ mantissaBits d := by
  have hM : mantissaBits d ≠ 0 := Nat.one_le_iff_ne_zero.mp h.mantissaBits_pos
  obtain ⟨-, -, hbase, -⟩ := h
  unfold stepScale
  split
  · next hb => rw [hb]; norm_num
  · next hb =>
    rcases hbase with hbase | hbase
    · exact absurd (BitVec.eq_of_toNat_eq hbase) hb
    · rw [hbase, ← pow_sub_one_mul hM]; norm_num

theorem mantissaBits_le {d : Desc} (h : Desc.Legal d) : mantissaBits d ≤ 16 := by
  have := h.fields_add
  have := h.tb_le
  omega

theorem stepScale_mem_Icc {d : Desc} (h : Desc.Legal d) :
    (stepScale d : ℚ) ∈ Set.Icc 1 (2 ^ 16) := by
  have hle := mantissaBits_le h
  unfold stepScale
  split <;> rw [Set.mem_Icc, Nat.cast_pow, Nat.cast_ofNat] <;>
    exact ⟨one_le_pow₀ one_le_two, pow_le_pow_right₀ one_le_two (by omega)⟩

theorem stepScale_pos {d : Desc} (h : Desc.Legal d) : (0 : ℚ) < stepScale d :=
  one_pos.trans_le (stepScale_mem_Icc h).1

theorem base_le_three {d : Desc} (h : Desc.Legal d) : (d.base.toNat : ℚ) ≤ 3 := by
  obtain ⟨-, -, hbase, -⟩ := h
  rcases hbase with hb | hb <;> rw [hb] <;> norm_num

theorem mantissaMask_add_one (d : Desc) : mantissaMask d + 1 = 2 ^ mantissaBits d :=
  Nat.sub_add_cancel Nat.one_le_two_pow

/-- `step * (boundary - 1)` is half a unit past the largest mantissa (R29). -/
theorem boundary_eq {d : Desc} (h : Desc.Legal d) :
    boundary d = d.base.toNat - 1 / (2 * stepScale d) := by
  have hstep := stepScale_pos h
  have hb : (d.base.toNat : ℚ) - 1 ≠ 0 := by linarith [h.two_le_base]
  rw [boundary, ← stepScale_mul h]
  field_simp
  ring

/-- The exact significand of a mantissa, `1 + m / step` (R100). -/
def exactSig (d : Desc) (m : Nat) : ℚ := 1 + (m : ℚ) / stepScale d

theorem one_le_exactSig (d : Desc) (m : Nat) : 1 ≤ exactSig d m :=
  le_add_of_nonneg_right (by positivity)

theorem exactSig_mono (d : Desc) : Monotone (exactSig d) := by
  intro m n hmn
  unfold exactSig
  gcongr

/-- The largest significand is one unit short of the base. -/
theorem exactSig_mantissaMask {d : Desc} (h : Desc.Legal d) :
    exactSig d (mantissaMask d) = d.base.toNat - 1 / stepScale d := by
  have hstep := stepScale_pos h
  have hmask : (mantissaMask d : ℚ) + 1 = stepScale d * (d.base.toNat - 1) := by
    rw [stepScale_mul h]
    exact_mod_cast mantissaMask_add_one d
  rw [exactSig, eq_sub_of_add_eq hmask]
  field_simp
  ring

theorem exactSig_le {d : Desc} (h : Desc.Legal d) {m : Nat} (hm : m ≤ mantissaMask d) :
    exactSig d m ≤ d.base.toNat - 1 / stepScale d :=
  (exactSig_mono d hm).trans_eq (exactSig_mantissaMask h)

/-- The exact inner value of a code: `scale[e] * (1 + m / step)` (R100 step 3). -/
def exactInner (d : Desc) (e m : Nat) : ℚ := basePow d e * exactSig d m

theorem basePow_le_exactInner {d : Desc} (h : Desc.Legal d) (e m : Nat) :
    basePow d e ≤ exactInner d e m :=
  le_mul_of_one_le_right (h.basePow_pos e).le (one_le_exactSig d m)

/-! ### The exact magnitude -/

/-- With an exponent of at least 0 the inner value is a whole number of units `1 / step`. -/
theorem exactInner_sub_one_of_nonneg {d : Desc} (h : Desc.Legal d) {e m : Nat}
    (he : 0 ≤ d.mine.toInt + e) :
    ∃ z : ℤ, exactInner d e m - 1 = z / stepScale d := by
  obtain ⟨n, hn⟩ := Int.eq_ofNat_of_zero_le he
  have hstep := stepScale_pos h
  refine ⟨(d.base.toNat : ℤ) ^ n * (stepScale d + m) - stepScale d, ?_⟩
  rw [exactInner, basePow, hn, exactSig]
  push_cast
  rw [zpow_natCast]
  field_simp

/-- With a negative exponent the inner value stays below 1 by a unit over the base. -/
theorem exactInner_le_of_neg {d : Desc} (h : Desc.Legal d) {e m : Nat}
    (he : d.mine.toInt + e < 0) (hm : m ≤ mantissaMask d) :
    exactInner d e m ≤ 1 - 1 / (d.base.toNat * stepScale d) := by
  have hb := two_pos.trans_le h.two_le_base
  have hstep := stepScale_pos h
  have hpow : basePow d e ≤ 1 / d.base.toNat := by
    rw [one_div, ← zpow_neg_one]
    exact zpow_le_zpow_right₀ (one_le_two.trans h.two_le_base) (by omega)
  calc exactInner d e m ≤ 1 / d.base.toNat * (d.base.toNat - 1 / stepScale d) :=
        mul_le_mul hpow (exactSig_le h hm) (zero_le_one.trans (one_le_exactSig d m)) (by positivity)
    _ = 1 - 1 / (d.base.toNat * stepScale d) := by field_simp

/-- Units near 1 are far wider than the snap: an inner value this near to 1 is 1 (R103). -/
theorem exactInner_eq_one {d : Desc} (h : Desc.Legal d) {e m : Nat} (hm : m ≤ mantissaMask d)
    (hnear : |exactInner d e m - 1| < 1 / 10 ^ 14) : exactInner d e m = 1 := by
  have hstep := stepScale_pos h
  obtain ⟨-, hstep'⟩ := stepScale_mem_Icc h
  rcases lt_or_ge (d.mine.toInt + e) 0 with he | he
  · have hle := exactInner_le_of_neg h he hm
    have hb := two_pos.trans_le h.two_le_base
    have hb' := base_le_three h
    have hunit : (1 : ℚ) / 10 ^ 14 < 1 / (d.base.toNat * stepScale d) :=
      calc (1 : ℚ) / 10 ^ 14 < 1 / ((3 : ℚ) * 2 ^ 16) := by norm_num
        _ ≤ 1 / ((d.base.toNat : ℚ) * stepScale d) := by gcongr
    obtain ⟨hlo, -⟩ := abs_lt.mp hnear
    linarith
  · obtain ⟨z, hz⟩ := exactInner_sub_one_of_nonneg h (m := m) he
    rw [hz, abs_div, abs_of_pos hstep, div_lt_iff₀ hstep] at hnear
    have hlt : |(z : ℚ)| < 1 :=
      calc |(z : ℚ)| < 1 / 10 ^ 14 * stepScale d := hnear
        _ ≤ 1 / 10 ^ 14 * 2 ^ 16 := by gcongr
        _ < 1 := by norm_num
    have hzero : z = 0 := Int.abs_lt_one_iff.mp (by exact_mod_cast hlt)
    rw [hzero, Int.cast_zero, zero_div] at hz
    linarith

theorem affineA_exact (d : Desc) : affineA .exact d = basePow d 0 := scale_exact d 0

theorem oneMinusA_exact (d : Desc) : oneMinusA .exact d = 1 - basePow d 0 := by
  rw [oneMinusA, affineA_exact]
  rfl

theorem mag_exact_eq_snap (d : Desc) (e m : Nat) :
    mag .exact d e m =
      snapToOne .exact ((exactInner d e m - basePow d 0) / (1 - basePow d 0)) := by
  change snapToOne .exact
    ((exactSig d m * scale .exact d e - affineA .exact d) * (1 / oneMinusA .exact d)) = _
  rw [scale_exact, affineA_exact, oneMinusA_exact, mul_one_div, exactInner, mul_comm (exactSig d m)]

/-- Under EXACT the magnitude is the affine remap of the inner value, and the snap does nothing
(R100, R103). -/
theorem mag_exact {d : Desc} (h : Desc.Legal d) (e : Nat) {m : Nat} (hm : m ≤ mantissaMask d) :
    mag .exact d e m = (exactInner d e m - basePow d 0) / (1 - basePow d 0) := by
  rw [mag_exact_eq_snap, snapToOne]
  split
  · next hsnap =>
    have hpow := h.basePow_pos 0
    have hhalf := h.basePow_zero_le_half
    have hpos : 0 < 1 - basePow d 0 := by linarith
    have hone : exactInner d e m = 1 := by
      refine exactInner_eq_one h hm (lt_of_le_of_lt ?_ hsnap)
      change _ ≤ |(exactInner d e m - basePow d 0) / (1 - basePow d 0) - 1|
      rw [div_sub_one hpos.ne', sub_sub_sub_cancel_right, abs_div, abs_of_pos hpos]
      exact le_div_self (abs_nonneg _) hpos (by linarith)
    rw [hone, div_self hpos.ne']
  · rfl

end Sys2Proof.Machine
end

section
/-! SUPPORT. What ENC packs (41_scalar_codec.md rules R94 to R97): the exponent search, the
mantissa, the magnitude part of the code and its sign, and the order they keep (R99). -/

namespace Sys2Proof.Machine

/-! ### The exponent search -/

theorem topIndex_add_one (d : Desc) : topIndex d + 1 = 2 ^ d.xb.toNat :=
  Nat.sub_add_cancel Nat.one_le_two_pow

theorem exponentIndex_le (ar : Arith) (d : Desc) (inner : ℚ) :
    exponentIndex ar d inner ≤ topIndex d := (scanDown_spec _ _).1

theorem exponentIndex_lt (ar : Arith) (d : Desc) (inner : ℚ) :
    exponentIndex ar d inner < 2 ^ d.xb.toNat := by
  rw [← topIndex_add_one]
  exact Nat.lt_succ_of_le (exponentIndex_le ar d inner)

/-- The scaled boundary below the chosen index is at most the inner value (R95). -/
theorem boundary_mul_scale_le {ar : Arith} {d : Desc} {inner : ℚ}
    (hpos : 0 < exponentIndex ar d inner) :
    ar.mul (boundary d) (scale ar d (exponentIndex ar d inner - 1)) ≤ inner :=
  of_decide_eq_true ((scanDown_spec _ _).2.1 hpos)

/-- Every scaled boundary above it is larger than the inner value (R95). -/
theorem lt_boundary_mul_scale {ar : Arith} {d : Desc} {inner : ℚ} {j : Nat}
    (hj : exponentIndex ar d inner < j) (htop : j ≤ topIndex d) :
    inner < ar.mul (boundary d) (scale ar d (j - 1)) :=
  not_le.mp (of_decide_eq_false ((scanDown_spec _ _).2.2 j hj htop))

/-- The index is the only one with these two properties. -/
theorem exponentIndex_eq {ar : Arith} {d : Desc} {inner : ℚ} {i : Nat} (hi : i ≤ topIndex d)
    (hle : 0 < i → ar.mul (boundary d) (scale ar d (i - 1)) ≤ inner)
    (hlt : ∀ j, i < j → j ≤ topIndex d → inner < ar.mul (boundary d) (scale ar d (j - 1))) :
    exponentIndex ar d inner = i := by
  rcases lt_trichotomy (exponentIndex ar d inner) i with h | h | h
  · exact absurd (hle (by omega)) (not_le.mpr (lt_boundary_mul_scale h hi))
  · exact h
  · exact absurd (boundary_mul_scale_le (by omega))
      (not_le.mpr (hlt _ h (exponentIndex_le ar d inner)))

/-- A larger inner value passes every test a smaller one passes. -/
theorem exponentIndex_mono (ar : Arith) (d : Desc) : Monotone (exponentIndex ar d) := by
  intro x y hxy
  by_contra hlt
  have hlt := not_le.mp hlt
  have hx := boundary_mul_scale_le (ar := ar) (d := d) (inner := x) (by omega)
  exact absurd (hx.trans hxy) (not_le.mpr (lt_boundary_mul_scale hlt (exponentIndex_le ar d x)))

/-! ### The mantissa -/

theorem mantissaOf_eq_min (ar : Arith) (d : Desc) (inner : ℚ) (i : Nat) :
    mantissaOf ar d inner i =
      (min (rha (scaledSignificand ar d inner i)) (mantissaMask d)).toNat := by
  unfold mantissaOf
  simp only
  congr 1
  split <;> omega

theorem mantissaOf_lt (ar : Arith) (d : Desc) (inner : ℚ) (i : Nat) :
    mantissaOf ar d inner i < 2 ^ mantissaBits d := by
  rw [mantissaOf_eq_min, ← mantissaMask_add_one]
  omega

theorem scaledSignificand_mono {d : Desc} (h : Desc.Legal d) (ar : Arith) (i : Nat) :
    Monotone (scaledSignificand ar d · i) := by
  intro x y hxy
  have hdiv : ar.div x (scale ar d i) ≤ ar.div y (scale ar d i) :=
    round_mono ar (div_le_div_of_nonneg_right hxy (scale_pos h ar i).le)
  have hsub : ar.sub (ar.div x (scale ar d i)) 1 ≤ ar.sub (ar.div y (scale ar d i)) 1 :=
    round_mono ar (sub_le_sub_right hdiv 1)
  exact round_mono ar (mul_le_mul_of_nonneg_right hsub (stepScale_pos h).le)

theorem mantissaOf_mono {d : Desc} (h : Desc.Legal d) (ar : Arith) (i : Nat) :
    Monotone (mantissaOf ar d · i) := by
  intro x y hxy
  have hrha := rha_mono (scaledSignificand_mono h ar i hxy)
  simp only [mantissaOf_eq_min]
  exact Int.toNat_le_toNat (min_le_min_right _ hrha)

/-! ### The magnitude part of a code -/

theorem packed_lt {X M i m : Nat} (hi : i < 2 ^ X) (hm : m < 2 ^ M) :
    i * 2 ^ M + m < 2 ^ (X + M) := by
  have hle : (i + 1) * 2 ^ M ≤ 2 ^ X * 2 ^ M := Nat.mul_le_mul_right _ hi
  rw [Nat.pow_add]
  rw [Nat.succ_mul] at hle
  omega

theorem maxCode_toNat {d : Desc} (h : Desc.Legal d) :
    (maxCode d).toNat = 2 ^ (d.xb.toNat + mantissaBits d) - 1 := by
  have htop := topIndex_add_one d
  have hmask := mantissaMask_add_one d
  rw [maxCode, packFields_toNat h (by omega) (by omega), Nat.pow_add, ← htop, Nat.succ_mul]
  omega

theorem encodeMagnitude_toNat {d : Desc} (h : Desc.Legal d) (ar : Arith) (v : ℚ) :
    (encodeMagnitude ar d v).toNat =
      exponentIndex ar d (innerOf ar d v) * 2 ^ mantissaBits d +
        mantissaOf ar d (innerOf ar d v) (exponentIndex ar d (innerOf ar d v)) :=
  packFields_toNat h (exponentIndex_lt _ _ _) (mantissaOf_lt _ _ _ _)

theorem encodeMagnitude_lt {d : Desc} (h : Desc.Legal d) (ar : Arith) (v : ℚ) :
    (encodeMagnitude ar d v).toNat < 2 ^ (d.xb.toNat + mantissaBits d) := by
  rw [encodeMagnitude_toNat h]
  exact packed_lt (exponentIndex_lt _ _ _) (mantissaOf_lt _ _ _ _)

theorem innerOf_mono {d : Desc} (h : Desc.Legal d) (ar : Arith) : Monotone (innerOf ar d) := by
  intro v v' hv
  have hmul : ar.mul v (oneMinusA ar d) ≤ ar.mul v' (oneMinusA ar d) :=
    round_mono ar (mul_le_mul_of_nonneg_right hv (oneMinusA_nonneg h ar))
  exact round_mono ar (by gcongr)

/-- A larger magnitude has a larger exponent index, or the same index and no smaller a mantissa. -/
theorem encodeMagnitude_mono {d : Desc} (h : Desc.Legal d) (ar : Arith) {v v' : ℚ} (hv : v ≤ v') :
    (encodeMagnitude ar d v).toNat ≤ (encodeMagnitude ar d v').toNat := by
  have hinner := innerOf_mono h ar hv
  rw [encodeMagnitude_toNat h, encodeMagnitude_toNat h]
  rcases (exponentIndex_mono ar d hinner).lt_or_eq with hlt | heq
  · have hm := mantissaOf_lt ar d (innerOf ar d v) (exponentIndex ar d (innerOf ar d v))
    have hle := Nat.mul_le_mul_right (2 ^ mantissaBits d) (Nat.succ_le_of_lt hlt)
    rw [Nat.succ_mul] at hle
    omega
  · rw [heq]
    exact Nat.add_le_add_left (mantissaOf_mono h ar _ hinner) _

/-- Steps 3 to 7 of R90 without the sign: the saturated code, or the packed fields. -/
def magnitudeCode (ar : Arith) (d : Desc) (w : Word64) : Code :=
  if isInf w || decide (maxValue ar d ≤ absVal w) then maxCode d
  else encodeMagnitude ar d (absVal w)

theorem magnitudeCode_of_saturated {ar : Arith} {d : Desc} {w : Word64}
    (h : isInf w = true ∨ maxValue ar d ≤ absVal w) : magnitudeCode ar d w = maxCode d := by
  rw [magnitudeCode, if_pos (by simpa using h)]

theorem magnitudeCode_of_lt {ar : Arith} {d : Desc} {w : Word64} (hinf : isInf w = false)
    (h : absVal w < maxValue ar d) : magnitudeCode ar d w = encodeMagnitude ar d (absVal w) := by
  rw [magnitudeCode, if_neg (by simp [hinf, h])]

theorem magnitudeCode_lt {d : Desc} (h : Desc.Legal d) (ar : Arith) (w : Word64) :
    (magnitudeCode ar d w).toNat < 2 ^ (d.xb.toNat + mantissaBits d) := by
  unfold magnitudeCode
  split
  · rw [maxCode_toNat h]
    exact Nat.sub_lt (Nat.two_pow_pos _) one_pos
  · exact encodeMagnitude_lt h ar _

/-- The order of magnitudes, the infinite one greatest. -/
def MagnitudeLe (w w' : Word64) : Prop := isInf w' = true ∨ isInf w = false ∧ absVal w ≤ absVal w'

theorem magnitudeCode_mono {d : Desc} (h : Desc.Legal d) (ar : Arith) {w w' : Word64}
    (hle : MagnitudeLe w w') : (magnitudeCode ar d w).toNat ≤ (magnitudeCode ar d w').toNat := by
  by_cases hsat : isInf w' = true ∨ maxValue ar d ≤ absVal w'
  · have hlt := magnitudeCode_lt h ar w
    rw [magnitudeCode_of_saturated hsat, maxCode_toNat h]
    omega
  · obtain ⟨hinf', hlt'⟩ := not_or.mp hsat
    obtain ⟨hinf, hmag⟩ := hle.resolve_left hinf'
    have hlt' := not_le.mp hlt'
    rw [magnitudeCode_of_lt hinf (hmag.trans_lt hlt'),
      magnitudeCode_of_lt (by simpa using hinf') hlt']
    exact encodeMagnitude_mono h ar hmag

/-! ### The code with its sign -/

theorem encodeValue_of_nan {ar : Arith} {d : Desc} {w : Word64} (h : isNaN w = true) :
    encodeValue ar d w = 0#16 := by
  simp [encodeValue, h]

theorem encodeValue_of_unsigned_neg {ar : Arith} {d : Desc} {w : Word64} (hsg : d.sg = false)
    (hneg : neg w = true) : encodeValue ar d w = 0#16 := by
  simp [encodeValue, hsg, hneg]

theorem encodeValue_eq {ar : Arith} {d : Desc} {w : Word64} (hnan : isNaN w = false)
    (hsign : d.sg = true ∨ neg w = false) :
    encodeValue ar d w = (if neg w then signMask d else 0#16) ||| magnitudeCode ar d w := by
  have hsgn : (d.sg && neg w) = neg w := by rcases hsign with h | h <;> simp [h]
  have hunsigned : (!d.sg && neg w) = false := by rcases hsign with h | h <;> simp [h]
  simp only [encodeValue, magnitudeCode, hnan, hsgn, hunsigned, Bool.false_eq_true, if_false]
  exact (apply_ite ((if neg w then signMask d else 0#16) ||| ·) _ _ _).symm

/-- The sign bit stands above the two fields (R97). -/
theorem signMask_or_toNat {d : Desc} (h : Desc.Legal d) (hsg : d.sg = true) {c : Code}
    (hc : c.toNat < 2 ^ (d.xb.toNat + mantissaBits d)) :
    (signMask d ||| c).toNat = 2 ^ (d.tb.toNat - 1) + c.toNat := by
  have hfields := h.fields_add
  rw [hsg, Bool.toNat_true] at hfields
  have hwidth : d.xb.toNat + mantissaBits d = d.tb.toNat - 1 := by omega
  have hor := Nat.two_pow_add_eq_or_of_lt (hwidth ▸ hc) 1
  rw [mul_one] at hor
  rw [BitVec.toNat_or, signMask_toNat h, if_pos hsg, hor]

theorem encodeValue_toNat {d : Desc} (h : Desc.Legal d) (ar : Arith) {w : Word64}
    (hnan : isNaN w = false) (hsign : d.sg = true ∨ neg w = false) :
    (encodeValue ar d w).toNat =
      (if neg w then 2 ^ (d.tb.toNat - 1) else 0) + (magnitudeCode ar d w).toNat := by
  rw [encodeValue_eq hnan hsign]
  cases hneg : neg w with
  | false => simp
  | true =>
    exact signMask_or_toNat h (hsign.resolve_right (by simp [hneg])) (magnitudeCode_lt h ar w)

/-- A code fits the width: a sign bit, if the format has one, above the two fields. -/
theorem encodeValue_lt {d : Desc} (h : Desc.Legal d) (ar : Arith) (w : Word64) :
    (encodeValue ar d w).toNat < 2 ^ d.tb.toNat := by
  have hpos := Nat.two_pow_pos d.tb.toNat
  cases hnan : isNaN w with
  | true => rwa [encodeValue_of_nan hnan]
  | false =>
    have hfields := h.fields_add
    have hlt := magnitudeCode_lt h ar w
    cases hneg : neg w with
    | false =>
      have hle : 2 ^ (d.xb.toNat + mantissaBits d) ≤ 2 ^ d.tb.toNat :=
        Nat.pow_le_pow_right two_pos (by omega)
      rw [encodeValue_toNat h ar hnan (.inr hneg), if_neg (by simp [hneg])]
      omega
    | true =>
      cases hsg : d.sg with
      | false => rwa [encodeValue_of_unsigned_neg hsg hneg]
      | true =>
        have htb := h.1
        rw [hsg, Bool.toNat_true] at hfields
        rw [show d.xb.toNat + mantissaBits d = d.tb.toNat - 1 by omega] at hlt
        rw [encodeValue_toNat h ar hnan (.inl hsg), if_pos hneg,
          ← Nat.two_pow_pred_add_two_pow_pred (w := d.tb.toNat) htb]
        omega

end Sys2Proof.Machine
end

section
/-! SUPPORT. Under both ARITH values the mantissa of ENC is never negative: the inner value is at
least the power of its bucket but for a quarter of a mantissa unit and the rounding errors
(41_scalar_codec.md rule R96, first fact). And what the formulas of ENC are under EXACT. -/

namespace Sys2Proof.Machine

/-! ### Bounds of one rounded operation -/

theorem le_round (ar : Arith) {l q : ℚ} (hl : leastNormal ≤ l) (h : l ≤ q) :
    (1 - 1 / 2 ^ 53) * l ≤ ar.round q := by
  obtain ⟨hlo, -⟩ := abs_le.mp (abs_round_sub_le ar hl)
  have hle := round_mono ar h
  linarith

theorem round_le (ar : Arith) {q u : ℚ} (hu : leastNormal ≤ u) (h : q ≤ u) :
    ar.round q ≤ (1 + 1 / 2 ^ 53) * u := by
  obtain ⟨-, hhi⟩ := abs_le.mp (abs_round_sub_le ar hu)
  have hle := round_mono ar h
  linarith

theorem round_neg (ar : Arith) (q : ℚ) : ar.round (-q) = -ar.round q := by
  cases ar with
  | exact => rfl
  | binary64 => exact rne64_neg q

theorem neg_le_round (ar : Arith) {q u : ℚ} (hu : leastNormal ≤ u) (h : -u ≤ q) :
    -((1 + 1 / 2 ^ 53) * u) ≤ ar.round q := by
  have hle := round_le ar hu (neg_le.mp h)
  rw [round_neg] at hle
  exact neg_le.mp hle

theorem leastNormal_le : leastNormal ≤ 1 / 1024 := by
  have h := mul_leastNormal_le_one
  linarith

/-! ### The scale table and the unit of the mantissa -/

/-- A scale entry is off by at most one rounding. -/
theorem scale_mem_Icc_ulp {d : Desc} (h : Desc.Legal d) (ar : Arith) {i : Nat} (hi : i ≤ 15) :
    scale ar d i ∈
      Set.Icc ((1 - 1 / 2 ^ 53) * basePow d i) ((1 + 1 / 2 ^ 53) * basePow d i) := by
  obtain ⟨hlow, -⟩ := h.basePow_mem_Icc hi
  have hl := leastNormal_pos
  have hnormal : leastNormal ≤ basePow d i := by linarith
  rcases scale_cases ar d i with he | he
  · rw [he]
    constructor <;> linarith
  · rw [he]
    exact ⟨le_round ar hnormal le_rfl, round_le ar hnormal le_rfl⟩

/-- The unit of the mantissa, `1 / step`, the width of a mantissa step in the significand. -/
def mantissaUnit (d : Desc) : ℚ := 1 / stepScale d

theorem mantissaUnit_mem_Icc {d : Desc} (h : Desc.Legal d) :
    mantissaUnit d ∈ Set.Icc (1 / 2 ^ 16) 1 := by
  obtain ⟨hlo, hhi⟩ := stepScale_mem_Icc h
  have hpos := stepScale_pos h
  exact ⟨one_div_le_one_div_of_le hpos hhi, (div_le_one hpos).mpr hlo⟩

theorem mantissaUnit_mul {d : Desc} (h : Desc.Legal d) : mantissaUnit d * stepScale d = 1 :=
  one_div_mul_cancel (stepScale_pos h).ne'

theorem boundary_eq_unit {d : Desc} (h : Desc.Legal d) :
    boundary d = d.base.toNat - mantissaUnit d / 2 := by
  rw [boundary_eq h, mantissaUnit, div_div, mul_comm 2]

/-- A scaled boundary is below the next power by at most a quarter of a unit (R96). -/
theorem le_boundary_mul_basePow {d : Desc} (h : Desc.Legal d) (j : Nat) :
    (1 - mantissaUnit d / 4) * basePow d (j + 1) ≤ boundary d * basePow d j := by
  have hb := h.two_le_base
  obtain ⟨hu, -⟩ := mantissaUnit_mem_Icc h
  have hpow := h.basePow_pos j
  rw [boundary_eq_unit h, basePow_succ h, ← mul_assoc]
  refine mul_le_mul_of_nonneg_right ?_ hpow.le
  nlinarith

/-- A lower bound of the exact scaled boundary, loosened by the roundings of the scale entry and of
the product. -/
theorem le_mul_boundary_scale {d : Desc} (h : Desc.Legal d) (ar : Arith) {j : Nat} (hj : j < 15) :
    (1 - 17 / 64 * mantissaUnit d) * basePow d (j + 1) ≤ ar.mul (boundary d) (scale ar d j) := by
  obtain ⟨hu, hu1⟩ := mantissaUnit_mem_Icc h
  obtain ⟨hslo, -⟩ := scale_mem_Icc_ulp h ar hj.le
  obtain ⟨hlow, -⟩ := h.basePow_mem_Icc (Nat.succ_le_of_lt hj)
  have hpow := h.basePow_pos (j + 1)
  have hbound := le_boundary_mul_basePow h j
  have hbpos : 0 ≤ boundary d := by
    rw [boundary_eq_unit h]
    linarith [h.two_le_base]
  have hprod : (1 - 1 / 2 ^ 53) * ((1 - mantissaUnit d / 4) * basePow d (j + 1)) ≤
      boundary d * scale ar d j := by
    have hmul := mul_le_mul_of_nonneg_left hslo hbpos
    linarith
  have hscalar : (1 - 17 / 64 * mantissaUnit d : ℚ) ≤
      (1 - 1 / 2 ^ 53) * ((1 - 1 / 2 ^ 53) * (1 - mantissaUnit d / 4)) := by linarith
  have hnormal :
      leastNormal ≤ (1 - 1 / 2 ^ 53) * ((1 - mantissaUnit d / 4) * basePow d (j + 1)) := by
    have hhalf : (1 / 2 : ℚ) ≤ (1 - 1 / 2 ^ 53) * (1 - mantissaUnit d / 4) := by linarith
    have hmul := mul_le_mul_of_nonneg_right hhalf hpow.le
    linarith [leastNormal_pos]
  calc _ ≤ (1 - 1 / 2 ^ 53) * ((1 - 1 / 2 ^ 53) * (1 - mantissaUnit d / 4)) * basePow d (j + 1) :=
        mul_le_mul_of_nonneg_right hscalar hpow.le
    _ = (1 - 1 / 2 ^ 53) * ((1 - 1 / 2 ^ 53) * ((1 - mantissaUnit d / 4) * basePow d (j + 1))) := by
        ring
    _ ≤ ar.mul (boundary d) (scale ar d j) := le_round ar hnormal hprod

/-! ### The bucket of an inner value -/

/-- The remap starts at `a`, which rounding leaves alone (R94). -/
theorem affineA_le_innerOf {d : Desc} (h : Desc.Legal d) (ar : Arith) {v : ℚ} (hv : 0 ≤ v) :
    affineA ar d ≤ innerOf ar d v := by
  have hmul : 0 ≤ ar.mul v (oneMinusA ar d) :=
    round_nonneg ar (mul_nonneg hv (oneMinusA_nonneg h ar))
  calc affineA ar d = ar.round (affineA ar d) := (round_scale h ar (Nat.zero_le 15)).symm
    _ ≤ innerOf ar d v := round_mono ar (le_add_of_nonneg_left hmul)

theorem bucket_le_innerOf {d : Desc} (h : Desc.Legal d) (ar : Arith) {v : ℚ} (hv : 0 ≤ v) :
    (1 - 17 / 64 * mantissaUnit d) * basePow d (exponentIndex ar d (innerOf ar d v)) ≤
      innerOf ar d v := by
  have htop := exponentIndex_le ar d (innerOf ar d v)
  have hle := h.topIndex_le
  have hfound := boundary_mul_scale_le (ar := ar) (d := d) (inner := innerOf ar d v)
  generalize exponentIndex ar d (innerOf ar d v) = i at *
  cases i with
  | zero =>
    obtain ⟨hu, -⟩ := mantissaUnit_mem_Icc h
    obtain ⟨hslo, -⟩ := scale_mem_Icc_ulp h ar (Nat.zero_le 15)
    have hscalar : (1 - 17 / 64 * mantissaUnit d : ℚ) ≤ 1 - 1 / 2 ^ 53 := by linarith
    calc _ ≤ (1 - 1 / 2 ^ 53) * basePow d 0 :=
          mul_le_mul_of_nonneg_right hscalar (h.basePow_pos 0).le
      _ ≤ affineA ar d := hslo
      _ ≤ innerOf ar d v := affineA_le_innerOf h ar hv
  | succ j => exact (le_mul_boundary_scale h ar (by omega)).trans (hfound (Nat.succ_pos j))

/-- The scaled significand stays above minus one half, with room for every rounding (R96). -/
theorem neg_half_lt_scaledSignificand {d : Desc} (h : Desc.Legal d) (ar : Arith) {inner : ℚ}
    {i : Nat} (hi : i ≤ 15)
    (hbucket : (1 - 17 / 64 * mantissaUnit d) * basePow d i ≤ inner) :
    -(1 / 2) < scaledSignificand ar d inner i := by
  obtain ⟨hu, hu1⟩ := mantissaUnit_mem_Icc h
  have hsmall := leastNormal_le
  have hpow := h.basePow_pos i
  obtain ⟨-, hshi⟩ := scale_mem_Icc_ulp h ar hi
  have hquot : 1 - 18 / 64 * mantissaUnit d ≤ inner / scale ar d i := by
    rw [le_div_iff₀ (scale_pos h ar i)]
    have hscalar : (1 - 18 / 64 * mantissaUnit d) * (1 + 1 / 2 ^ 53) ≤
        1 - 17 / 64 * mantissaUnit d := by linarith
    calc (1 - 18 / 64 * mantissaUnit d) * scale ar d i
        ≤ (1 - 18 / 64 * mantissaUnit d) * ((1 + 1 / 2 ^ 53) * basePow d i) :=
          mul_le_mul_of_nonneg_left hshi (by linarith)
      _ ≤ (1 - 17 / 64 * mantissaUnit d) * basePow d i := by
          rw [← mul_assoc]
          exact mul_le_mul_of_nonneg_right hscalar hpow.le
      _ ≤ inner := hbucket
  have hdiv : 1 - 19 / 64 * mantissaUnit d ≤ ar.div inner (scale ar d i) := by
    have hround := le_round ar (by linarith) hquot
    exact le_trans (by linarith) hround
  have hsub : -(20 / 64 * mantissaUnit d) ≤ ar.sub (ar.div inner (scale ar d i)) 1 := by
    have htiny : leastNormal ≤ 1 / 2 ^ 20 :=
      calc leastNormal ≤ 2 ^ (-20 : ℤ) := zpow_le_zpow_right₀ one_le_two (by omega)
        _ = 1 / 2 ^ 20 := by norm_num
    have hround := neg_le_round ar (u := 19 / 64 * mantissaUnit d)
      (q := ar.div inner (scale ar d i) - 1) (by linarith) (by linarith)
    exact le_trans (by linarith) hround
  have hprod : -(20 / 64) ≤ ar.sub (ar.div inner (scale ar d i)) 1 * stepScale d := by
    have hmul := mul_le_mul_of_nonneg_right hsub (stepScale_pos h).le
    have hunit := mantissaUnit_mul h
    linarith
  have hround := neg_le_round ar (by linarith) hprod
  exact lt_of_lt_of_le (by norm_num) hround

/-- The mantissa is the rounded significand, clamped above only (R96). -/
theorem mantissaOf_eq {d : Desc} (h : Desc.Legal d) (ar : Arith) {v : ℚ} (hv : 0 ≤ v) :
    (mantissaOf ar d (innerOf ar d v) (exponentIndex ar d (innerOf ar d v)) : ℤ) =
      min (rha (scaledSignificand ar d (innerOf ar d v) (exponentIndex ar d (innerOf ar d v))))
        (2 ^ mantissaBits d - 1) := by
  have hi := (exponentIndex_le ar d (innerOf ar d v)).trans h.topIndex_le
  have hrha := rha_nonneg_of_lt (neg_half_lt_scaledSignificand h ar hi (bucket_le_innerOf h ar hv))
  have hmask : (mantissaMask d : ℤ) = 2 ^ mantissaBits d - 1 := by
    have := mantissaMask_add_one d
    exact eq_sub_of_add_eq (by exact_mod_cast this)
  rw [mantissaOf_eq_min, ← hmask]
  omega

/-! ### The formulas under EXACT -/

theorem innerOf_exact (d : Desc) (v : ℚ) :
    innerOf .exact d v = v * (1 - basePow d 0) + basePow d 0 := by
  rw [← oneMinusA_exact, ← affineA_exact]
  rfl

/-- Under EXACT the remap of ENC undoes that of DEC (R94, R100). -/
theorem innerOf_mag_exact {d : Desc} (h : Desc.Legal d) (e : Nat) {m : Nat}
    (hm : m ≤ mantissaMask d) : innerOf .exact d (mag .exact d e m) = exactInner d e m := by
  have hne : 1 - basePow d 0 ≠ 0 := by linarith [h.basePow_zero_le_half]
  rw [innerOf_exact, mag_exact h e hm, div_mul_cancel₀ _ hne, sub_add_cancel]

theorem scaledSignificand_exact (d : Desc) (inner : ℚ) (i : Nat) :
    scaledSignificand .exact d inner i = (inner / basePow d i - 1) * stepScale d := by
  rw [← scale_exact]
  rfl

theorem scaledSignificand_exactInner {d : Desc} (h : Desc.Legal d) (e m : Nat) :
    scaledSignificand .exact d (exactInner d e m) e = m := by
  rw [scaledSignificand_exact, exactInner, mul_div_cancel_left₀ _ (h.basePow_pos e).ne', exactSig,
    add_sub_cancel_left, div_mul_cancel₀ _ (stepScale_pos h).ne']

/-- The scaled boundary is half a unit past the largest mantissa (R29). -/
theorem scaledSignificand_boundary {d : Desc} (h : Desc.Legal d) (i : Nat) :
    scaledSignificand .exact d (boundary d * basePow d i) i = mantissaMask d + 1 / 2 := by
  have hpow := (h.basePow_pos i).ne'
  have hmask := scaledSignificand_exactInner h i (mantissaMask d)
  have hunit := mantissaUnit_mul h
  rw [scaledSignificand_exact, exactInner, mul_div_cancel_left₀ _ hpow, exactSig_mantissaMask h,
    ← mantissaUnit] at hmask
  rw [scaledSignificand_exact, mul_div_cancel_right₀ _ hpow, boundary_eq_unit h]
  linarith

theorem scaledSignificand_exact_strictMono {d : Desc} (h : Desc.Legal d) (i : Nat) :
    StrictMono (scaledSignificand .exact d · i) := by
  intro x y hxy
  simp only [scaledSignificand_exact]
  have hpow := h.basePow_pos i
  have hstep := stepScale_pos h
  gcongr

end Sys2Proof.Machine
end

section
/-! SUPPORT. The comparable value of a code, in numbers (42_order_transform.md rules R120 and R125),
and of what ENC answers (41_scalar_codec.md rule R99). -/

namespace Sys2Proof.Machine

/-! ### The layout of comparable values -/

/-- Bit N-1 of a container, read off the masked code. -/
theorem and_signMask_eq_zero_iff {d : Desc} (h : Desc.Legal d) (hsg : d.sg = true) (x : Code) :
    x &&& signMask d = 0#16 ↔ x.toNat % 2 ^ d.tb.toNat < 2 ^ (d.tb.toNat - 1) := by
  have hN : 2 ^ d.tb.toNat = 2 ^ (d.tb.toNat - 1) * 2 := by
    rw [← Nat.pow_succ, Nat.succ_eq_add_one, Nat.sub_add_cancel h.1]
  have hdiv : x.toNat % 2 ^ d.tb.toNat / 2 ^ (d.tb.toNat - 1) =
      x.toNat / 2 ^ (d.tb.toNat - 1) % 2 := by
    rw [hN, Nat.mod_mul_right_div_self]
  rw [← BitVec.toNat_inj, BitVec.toNat_and, signMask_toNat h, if_pos hsg, Nat.and_two_pow,
    ← Nat.div_eq_zero_iff_lt (Nat.two_pow_pos _), hdiv, Nat.testBit_eq_decide_div_mod_eq]
  have := Nat.two_pow_pos (d.tb.toNat - 1)
  rcases Nat.mod_two_eq_zero_or_one (x.toNat / 2 ^ (d.tb.toNat - 1)) with hbit | hbit <;>
    simp [hbit]

theorem not_and_codeMask_toNat {d : Desc} (h : Desc.Legal d) (x : Code) :
    (~~~x &&& codeMask d).toNat = 2 ^ d.tb.toNat - 1 - x.toNat % 2 ^ d.tb.toNat := by
  have hlt := Nat.mod_lt x.toNat (Nat.two_pow_pos d.tb.toNat)
  have hx := Nat.div_add_mod x.toNat (2 ^ d.tb.toNat)
  have hword : 2 ^ d.tb.toNat * 2 ^ (16 - d.tb.toNat) = 65536 := by
    rw [← Nat.pow_add, Nat.add_sub_cancel' h.tb_le]
  have hxlt : x.toNat < 2 ^ d.tb.toNat * 2 ^ (16 - d.tb.toNat) := by omega
  have hq : x.toNat / 2 ^ d.tb.toNat + 1 ≤ 2 ^ (16 - d.tb.toNat) := Nat.div_lt_of_lt_mul hxlt
  obtain ⟨k, hk⟩ := Nat.exists_eq_add_of_le hq
  have hsplit : 2 ^ 16 - 1 - x.toNat =
      2 ^ d.tb.toNat - 1 - x.toNat % 2 ^ d.tb.toNat + 2 ^ d.tb.toNat * k := by
    rw [hk, Nat.mul_add, Nat.mul_add] at hword
    omega
  rw [codeMask_and_toNat h, BitVec.toNat_not, hsplit, Nat.add_mul_mod_self_left,
    Nat.mod_eq_of_lt (by omega)]

/-- Setting the clear sign bit of a code adds its weight. -/
theorem signMask_or_and_codeMask_toNat {d : Desc} (h : Desc.Legal d) (hsg : d.sg = true) {x : Code}
    (hlt : x.toNat % 2 ^ d.tb.toNat < 2 ^ (d.tb.toNat - 1)) :
    ((signMask d ||| x) &&& codeMask d).toNat =
      2 ^ (d.tb.toNat - 1) + x.toNat % 2 ^ d.tb.toNat := by
  have hpow : 2 ^ (d.tb.toNat - 1) < 2 ^ d.tb.toNat :=
    Nat.pow_lt_pow_right one_lt_two (by have := h.1; omega)
  have hor := Nat.two_pow_add_eq_or_of_lt hlt 1
  rw [mul_one] at hor
  rw [codeMask_and_toNat h, BitVec.toNat_or, signMask_toNat h, if_pos hsg, Nat.or_mod_two_pow,
    Nat.mod_eq_of_lt hpow, hor]

/-- The numeric layout of comparable values (R125). -/
theorem toCmp_toNat {d : Desc} (h : Desc.Legal d) (x : Code) :
    (toCmp d x).toNat =
      if d.sg then
        (if x.toNat % 2 ^ d.tb.toNat < 2 ^ (d.tb.toNat - 1) then
          2 ^ (d.tb.toNat - 1) + x.toNat % 2 ^ d.tb.toNat
        else 2 ^ d.tb.toNat - 1 - x.toNat % 2 ^ d.tb.toNat)
      else x.toNat % 2 ^ d.tb.toNat := by
  unfold toCmp
  cases hsg : d.sg with
  | false =>
    have hmask : signMask d = 0#16 := by simp [signMask, hsg]
    simp [hmask, codeMask_and_toNat h]
  | true =>
    simp only [and_signMask_eq_zero_iff h hsg, if_true]
    split
    · next hlt => exact signMask_or_and_codeMask_toNat h hsg hlt
    · exact not_and_codeMask_toNat h x

/-! ### The real order of words -/

theorem neg_of_finite {w : Word64} (hnan : isNaN w = false) (hinf : isInf w = false) :
    neg w = decide (val w < 0) := by
  simp [neg, hnan, hinf]

theorem neg_of_inf {w : Word64} (hnan : isNaN w = false) (hinf : isInf w = true) :
    neg w = f64Sign w := by
  simp [neg, hnan, hinf]

/-- Two words in real order: of different signs, or of one sign and in the order of magnitudes that
goes with it. -/
theorem realLe_cases {w w' : Word64} (hnan : isNaN w = false) (hnan' : isNaN w' = false)
    (hle : realLe w w') :
    (neg w = true ∧ neg w' = false) ∨ (neg w = false ∧ neg w' = false ∧ MagnitudeLe w w') ∨
      (neg w = true ∧ neg w' = true ∧ MagnitudeLe w' w) := by
  rcases hle with ⟨hinf, hsign⟩ | ⟨hinf', hsign'⟩ | ⟨hinf, hinf', hval⟩
  · have hneg := (neg_of_inf hnan hinf).trans hsign
    cases hneg' : neg w' with
    | false => exact .inl ⟨hneg, rfl⟩
    | true => exact .inr (.inr ⟨hneg, rfl, .inl hinf⟩)
  · have hneg' := (neg_of_inf hnan' hinf').trans hsign'
    cases hneg : neg w with
    | false => exact .inr (.inl ⟨rfl, hneg', .inl hinf'⟩)
    | true => exact .inl ⟨rfl, hneg'⟩
  · rw [neg_of_finite hnan hinf, neg_of_finite hnan' hinf']
    simp only [decide_eq_true_eq, decide_eq_false_iff_not, not_lt]
    have habs := abs_val w
    have habs' := abs_val w'
    rcases lt_or_ge (val w) 0 with hneg | hneg
    · rcases lt_or_ge (val w') 0 with hneg' | hneg'
      · rw [abs_of_neg hneg] at habs
        rw [abs_of_neg hneg'] at habs'
        exact .inr (.inr ⟨hneg, hneg', .inr ⟨hinf', by linarith⟩⟩)
      · exact .inl ⟨hneg, hneg'⟩
    · have hneg' := hneg.trans hval
      rw [abs_of_nonneg hneg] at habs
      rw [abs_of_nonneg hneg'] at habs'
      exact .inr (.inl ⟨hneg, hneg', .inr ⟨hinf, by linarith⟩⟩)

/-! ### The comparable value of an encoded word -/

/-- The comparable value of ENC's code: the magnitude part counted up from the middle, down from
below it for a negative operand, and from 0 in an unsigned format. -/
theorem toCmp_encodeValue {d : Desc} (h : Desc.Legal d) (ar : Arith) {w : Word64}
    (hnan : isNaN w = false) :
    (toCmp d (encodeValue ar d w)).toNat =
      if d.sg then
        (if neg w then 2 ^ (d.tb.toNat - 1) - 1 - (magnitudeCode ar d w).toNat
        else 2 ^ (d.tb.toNat - 1) + (magnitudeCode ar d w).toNat)
      else if neg w then 0 else (magnitudeCode ar d w).toNat := by
  rw [toCmp_toNat h, Nat.mod_eq_of_lt (encodeValue_lt h ar w)]
  cases hsg : d.sg with
  | false =>
    cases hneg : neg w with
    | false => simp [encodeValue_toNat h ar hnan (.inr hneg), hneg]
    | true => simp [encodeValue_of_unsigned_neg hsg hneg]
  | true =>
    have hfields := h.fields_add
    have hlt := magnitudeCode_lt h ar w
    have hdouble := Nat.two_pow_pred_add_two_pow_pred (w := d.tb.toNat) h.1
    rw [hsg, Bool.toNat_true] at hfields
    rw [show d.xb.toNat + mantissaBits d = d.tb.toNat - 1 by omega] at hlt
    rw [encodeValue_toNat h ar hnan (.inl hsg)]
    cases neg w with
    | false => simp [hlt]
    | true =>
      simp only [if_true]
      rw [if_neg (by omega)]
      omega

end Sys2Proof.Machine
end

section
/-! PROOF. The statements about the exact magnitude and about ENC (41_scalar_codec.md rules R90 to
R100 and R103). -/

namespace Sys2Proof.Machine

/-- Settles O27: magnitudes near 1 lie too far apart for the snap. -/
theorem exactMagnitudeClosedForm : Obligations.ExactMagnitudeClosedForm := by
  intro d e m hlegal _ hm
  rw [mag_exact hlegal e hm, exactInner, exactSig, basePow, basePow, Nat.cast_zero, add_zero]

@[simp] theorem zext64_toNat (c : Code) : (zext64 c).toNat = c.toNat :=
  BitVec.toNat_setWidth_of_le (by omega)

theorem answers_enc {s : State} (hvalid : s.arch.cfgValid = true) (w : Word64) :
    s.Answers (.enc w) (zext64 (encodeValue s.arith s.arch.desc w)) :=
  whenConfigured_of_valid hvalid fun ar d => zext64 (encodeValue ar d w)

/-- Settles O28: the three cases of R90 before the exponent search. -/
theorem encSpecialOperands : Obligations.EncSpecialOperands := by
  rintro s w ⟨hvalid, hlegal⟩
  have hans := answers_enc hvalid w
  refine ⟨fun hnan => ?_, fun hsg hneg => ?_, fun hnan hsign hsat => ⟨_, hans, ?_⟩⟩
  · rwa [encodeValue_of_nan hnan] at hans
  · rwa [encodeValue_of_unsigned_neg hsg hneg] at hans
  · rw [zext64_toNat, encodeValue_toNat hlegal _ hnan hsign, magnitudeCode_of_saturated hsat,
      maxCode_toNat hlegal]

/-- Settles O29: the exponent search is R95's, and the mantissa is not negative (R96). -/
theorem encFiniteOperands : Obligations.EncFiniteOperands := by
  rintro s w ⟨hvalid, hlegal⟩ hnan hinf hsign hlt
  refine ⟨_, _, _, _, answers_enc hvalid w, rfl, exponentIndex_le _ _ _, boundary_mul_scale_le,
    fun j => lt_boundary_mul_scale, mantissaOf_eq hlegal _ (absVal_nonneg w), ?_⟩
  rw [zext64_toNat, encodeValue_toNat hlegal _ hnan hsign, magnitudeCode_of_lt hinf hlt,
    encodeMagnitude_toNat hlegal, add_assoc]
  rfl

/-- Settles O30: in every case of R90 the code is at most a sign bit above the two fields. -/
theorem encIsTotal : Obligations.EncIsTotal := by
  rintro s w ⟨hvalid, hlegal⟩
  refine ⟨_, answers_enc hvalid w, ?_⟩
  rw [zext64_toNat]
  exact Nat.le_sub_one_of_lt (encodeValue_lt hlegal _ w)

/-- Settles O31: in the last bucket max_value bounds the inner value, in any other the next boundary
does. -/
theorem exactMantissaNeedsNoClamp : Obligations.ExactMantissaNeedsNoClamp := by
  intro d v hlegal _ hlt
  have hinner : innerOf .exact d v < exactInner d (topIndex d) (mantissaMask d) := by
    have hpos : 0 < 1 - basePow d 0 := by linarith [hlegal.basePow_zero_le_half]
    rw [← innerOf_mag_exact hlegal _ le_rfl, innerOf_exact, innerOf_exact]
    exact add_lt_add_left (mul_lt_mul_of_pos_right hlt hpos) _
  have hnext := @lt_boundary_mul_scale .exact d (innerOf .exact d v)
  have htop := exponentIndex_le .exact d (innerOf .exact d v)
  refine rha_le_of_lt ?_
  generalize exponentIndex .exact d (innerOf .exact d v) = i at *
  rcases htop.lt_or_eq with hi | rfl
  · have hbound := hnext (Nat.lt_succ_self i) hi
    rw [Nat.succ_sub_one, scale_exact] at hbound
    rw [Int.cast_natCast, ← scaledSignificand_boundary hlegal i]
    exact scaledSignificand_exact_strictMono hlegal i hbound
  · have hmono := scaledSignificand_exact_strictMono hlegal (topIndex d) hinner
    simp only [scaledSignificand_exactInner hlegal] at hmono
    exact hmono.trans (lt_add_of_pos_right _ (by norm_num))

/-- Settles O32: every step of R90 keeps the order of magnitudes, and the comparable value turns it
round for negative operands. -/
theorem encIsMonotone : Obligations.EncIsMonotone := by
  intro ar d w w' hlegal hnan hnan' hle
  rw [toCmp_encodeValue hlegal ar hnan, toCmp_encodeValue hlegal ar hnan']
  rcases realLe_cases hnan hnan' hle with
    ⟨hneg, hneg'⟩ | ⟨hneg, hneg', hmag⟩ | ⟨hneg, hneg', hmag⟩
  · rw [hneg, hneg']
    have hpos := Nat.two_pow_pos (d.tb.toNat - 1)
    simp only [if_true, Bool.false_eq_true, if_false]
    split <;> omega
  · have hcode := magnitudeCode_mono hlegal ar hmag
    rw [hneg, hneg']
    simp only [Bool.false_eq_true, if_false]
    split <;> omega
  · have hcode := magnitudeCode_mono hlegal ar hmag
    rw [hneg, hneg']
    simp only [if_true]
    split <;> omega

end Sys2Proof.Machine
end

section
/-! SUPPORT. What DEC reads and computes (41_scalar_codec.md rules R100 to R104): the fields of a
code, the sign bit, and a magnitude that is representable and at most that of the largest code. -/

namespace Sys2Proof.Machine

/-! ### The fields of a code -/

theorem exponentField_eq (d : Desc) (y : Code) :
    exponentField d y = y.toNat / 2 ^ mantissaBits d % 2 ^ d.xb.toNat := by
  rw [exponentField, exponentMask, Nat.shiftRight_eq_div_pow, Nat.and_two_pow_sub_one_eq_mod]

theorem mantissaField_eq (d : Desc) (y : Code) :
    mantissaField d y = y.toNat % 2 ^ mantissaBits d := by
  rw [mantissaField, mantissaMask, Nat.and_two_pow_sub_one_eq_mod]

theorem exponentField_le (d : Desc) (y : Code) : exponentField d y ≤ topIndex d :=
  Nat.and_le_right

theorem mantissaField_le (d : Desc) (y : Code) : mantissaField d y ≤ mantissaMask d :=
  Nat.and_le_right

/-- The sign bit of a code (R104): bit N-1 of a signed format. -/
def signField (d : Desc) (y : Code) : Bool := y &&& signMask d != 0#16

theorem signField_iff {d : Desc} (h : Desc.Legal d) (x : Code) :
    signField d (x &&& codeMask d) = true ↔
      d.sg = true ∧ 2 ^ (d.tb.toNat - 1) ≤ x.toNat % 2 ^ d.tb.toNat := by
  cases hsg : d.sg with
  | false => simp [signField, signMask, hsg]
  | true =>
    rw [signField, bne_iff_ne, Ne, and_signMask_eq_zero_iff h hsg, codeMask_and_toNat h,
      Nat.mod_mod, not_lt]
    simp

/-- The two fields are the bits below the sign bit. -/
theorem fields_eq_mod (d : Desc) (y : Code) :
    exponentField d y * 2 ^ mantissaBits d + mantissaField d y =
      y.toNat % 2 ^ (d.xb.toNat + mantissaBits d) := by
  rw [exponentField_eq, mantissaField_eq, add_comm d.xb.toNat, Nat.pow_add, Nat.mod_mul]
  ring

/-- The two fields and the sign bit make up the masked code (R97, R101). -/
theorem masked_toNat_eq {d : Desc} (h : Desc.Legal d) (x : Code) :
    (x &&& codeMask d).toNat =
      (if signField d (x &&& codeMask d) then 2 ^ (d.tb.toNat - 1) else 0) +
        (exponentField d (x &&& codeMask d) * 2 ^ mantissaBits d +
          mantissaField d (x &&& codeMask d)) := by
  have hfields := h.fields_add
  have hlt := Nat.mod_lt x.toNat (Nat.two_pow_pos d.tb.toNat)
  rw [fields_eq_mod, codeMask_and_toNat h]
  cases hsg : d.sg with
  | false =>
    rw [hsg, Bool.toNat_false, add_zero] at hfields
    have hsign : ¬signField d (x &&& codeMask d) = true := by simp [signField_iff h, hsg]
    rw [if_neg hsign, add_comm d.xb.toNat, hfields, Nat.mod_mod, zero_add]
  | true =>
    rw [hsg, Bool.toNat_true] at hfields
    have hdouble := Nat.two_pow_pred_add_two_pow_pred (w := d.tb.toNat) h.1
    rw [show d.xb.toNat + mantissaBits d = d.tb.toNat - 1 by omega]
    simp only [signField_iff h, hsg, true_and]
    split
    · next hle =>
      have hrest : x.toNat % 2 ^ d.tb.toNat - 2 ^ (d.tb.toNat - 1) < 2 ^ (d.tb.toNat - 1) := by
        omega
      rw [Nat.mod_eq_sub_mod hle, Nat.mod_eq_of_lt hrest]
      omega
    · next hgt => rw [Nat.mod_eq_of_lt (not_le.mp hgt), zero_add]

/-- Setting the clear sign bit leaves the fields as they are. -/
theorem fields_of_setSign {d : Desc} (h : Desc.Legal d) (hsg : d.sg = true) {x : Code}
    (hclear : x &&& signMask d = 0#16) :
    exponentField d ((x ||| signMask d) &&& codeMask d) = exponentField d (x &&& codeMask d) ∧
      mantissaField d ((x ||| signMask d) &&& codeMask d) = mantissaField d (x &&& codeMask d) := by
  have hfields := h.fields_add
  rw [hsg, Bool.toNat_true] at hfields
  have hset := signMask_or_and_codeMask_toNat h hsg ((and_signMask_eq_zero_iff h hsg x).mp hclear)
  rw [show d.tb.toNat - 1 = mantissaBits d + d.xb.toNat by omega, Nat.pow_add] at hset
  rw [BitVec.or_comm, exponentField_eq, exponentField_eq, mantissaField_eq, mantissaField_eq, hset,
    codeMask_and_toNat h, Nat.mul_add_div (Nat.two_pow_pos _), Nat.add_mod_left,
    Nat.mul_add_mod]
  exact ⟨rfl, rfl⟩

theorem signField_of_setSign {d : Desc} (h : Desc.Legal d) (hsg : d.sg = true) {x : Code}
    (hclear : x &&& signMask d = 0#16) :
    signField d ((x ||| signMask d) &&& codeMask d) = true := by
  have hset := signMask_or_and_codeMask_toNat h hsg ((and_signMask_eq_zero_iff h hsg x).mp hclear)
  rw [codeMask_and_toNat h] at hset
  rw [signField_iff h, BitVec.or_comm, hset]
  exact ⟨hsg, Nat.le_add_right _ _⟩

theorem signField_of_clear {d : Desc} {x : Code} (hclear : x &&& signMask d = 0#16) :
    signField d (x &&& codeMask d) = false := by
  rw [signField, BitVec.and_assoc, BitVec.and_comm (codeMask d), ← BitVec.and_assoc, hclear]
  simp

/-! ### The magnitude -/

/-- The significand as the unit computes it, `1 ⊕ (m ⊘ step)` (R100 step 2). -/
def roundedSig (ar : Arith) (d : Desc) (m : Nat) : ℚ := ar.add 1 (ar.div m (stepScale d))

theorem one_le_roundedSig (ar : Arith) (d : Desc) (m : Nat) : 1 ≤ roundedSig ar d m := by
  have hdiv : 0 ≤ ar.div m (stepScale d) := round_nonneg ar (by positivity)
  exact (round_one ar).symm.le.trans (round_mono ar (le_add_of_nonneg_right hdiv))

theorem roundedSig_mono (ar : Arith) (d : Desc) : Monotone (roundedSig ar d) := by
  intro m n hmn
  have hdiv : ar.div m (stepScale d) ≤ ar.div n (stepScale d) := round_mono ar (by gcongr)
  exact round_mono ar (by gcongr)

/-- `inner ⊖ a`, the exact factor the last product takes (R100 step 4). -/
def magInner (ar : Arith) (d : Desc) (e m : Nat) : ℚ :=
  ar.sub (ar.mul (roundedSig ar d m) (scale ar d e)) (affineA ar d)

/-- The magnitude before its last rounding and the snap (R100 step 4). -/
def magProduct (ar : Arith) (d : Desc) (e m : Nat) : ℚ := magInner ar d e m * affineC ar d

theorem mag_eq_snap (ar : Arith) (d : Desc) (e m : Nat) :
    mag ar d e m = snapToOne ar (ar.round (magProduct ar d e m)) := rfl

theorem affineC_pos {d : Desc} (h : Desc.Legal d) (ar : Arith) : 0 < affineC ar d := by
  obtain ⟨hlo, -⟩ := h.affineC_mem_Icc ar
  linarith

theorem magInner_mono {d : Desc} (h : Desc.Legal d) (ar : Arith) {e e' m m' : Nat} (he : e ≤ e')
    (hm : roundedSig ar d m ≤ roundedSig ar d m') :
    magInner ar d e m ≤ magInner ar d e' m' := by
  have hsig := zero_le_one.trans (one_le_roundedSig ar d m')
  have hmul : ar.mul (roundedSig ar d m) (scale ar d e) ≤
      ar.mul (roundedSig ar d m') (scale ar d e') :=
    round_mono ar (mul_le_mul hm (scale_mono h ar he) (scale_pos h ar e).le hsig)
  exact round_mono ar (sub_le_sub_right hmul _)

/-- No code is below 0: `a` is representable, so no rounding takes `inner` below it (R100). -/
theorem magInner_nonneg {d : Desc} (h : Desc.Legal d) (ar : Arith) (e m : Nat) :
    0 ≤ magInner ar d e m := by
  have hle : affineA ar d ≤ roundedSig ar d m * scale ar d e :=
    (scale_mono h ar (Nat.zero_le e)).trans
      (le_mul_of_one_le_left (scale_pos h ar e).le (one_le_roundedSig ar d m))
  have hmul := round_mono ar hle
  rw [affineA, round_scale h ar (Nat.zero_le 15)] at hmul
  exact round_nonneg ar (sub_nonneg.mpr hmul)

theorem magInner_max (ar : Arith) (d : Desc) :
    magInner ar d (topIndex d) (mantissaMask d) = maxInnerSub ar d := rfl

theorem magProduct_nonneg {d : Desc} (h : Desc.Legal d) (ar : Arith) (e m : Nat) :
    0 ≤ magProduct ar d e m :=
  mul_nonneg (magInner_nonneg h ar e m) (affineC_pos h ar).le

theorem magProduct_le {d : Desc} (h : Desc.Legal d) (ar : Arith) {e m : Nat}
    (he : e ≤ topIndex d) (hm : m ≤ mantissaMask d) : magProduct ar d e m ≤ 2 ^ 27 := by
  obtain ⟨-, hhigh⟩ := h.basePow_mem_Icc h.topIndex_le
  have hpos := h.basePow_pos (topIndex d)
  obtain ⟨-, htop⟩ := h.maxInnerSub_mem_Icc ar
  have hinner := magInner_mono h ar he (roundedSig_mono ar d hm)
  rw [magInner_max] at hinner
  obtain ⟨-, hc⟩ := h.affineC_mem_Icc ar
  calc magProduct ar d e m ≤ maxInnerSub ar d * affineC ar d :=
        mul_le_mul_of_nonneg_right hinner (affineC_pos h ar).le
    _ ≤ 17 / 4 * basePow d (topIndex d) * (5 / 2) :=
        mul_le_mul htop hc (affineC_pos h ar).le (by positivity)
    _ ≤ 2 ^ 27 := by linarith

/-- Up to a bound far below overflow a non-negative argument rounds to a representable magnitude. -/
theorem rne64_canonical_of_le {q : ℚ} (hq : 0 ≤ q) (hle : q ≤ 2 ^ 28) :
    ∃ n k, Canonical64 n k ∧ rne64 q = n * 2 ^ k := by
  rcases le_or_gt leastNormal q with hnormal | hsmall
  · exact (rne64_pos_canonical ⟨hnormal, hle⟩).2
  · have hbound : |q| < 2 ^ 1024 - 2 ^ 970 := by
      have hone : (1 : ℚ) ≤ 2 ^ (971 : ℤ) := one_le_zpow₀ one_le_two (by omega)
      rw [abs_of_nonneg hq, overflow_bound]
      generalize (2 : ℚ) ^ (971 : ℤ) = p at hone ⊢
      linarith [leastNormal_le]
    obtain ⟨n, k, hcanon, habs, -⟩ := rne64_canonical hbound
    rw [abs_of_nonneg (rne64_nonneg hq)] at habs
    exact ⟨n, k, hcanon, habs⟩

/-- Every decoded magnitude that leaves the unit is representable (R104). -/
theorem outputMagnitude_canonical {d : Desc} (h : Desc.Legal d) (ar : Arith) {e m : Nat}
    (he : e ≤ topIndex d) (hm : m ≤ mantissaMask d) :
    ∃ n k, Canonical64 n k ∧ outputMagnitude ar (mag ar d e m) = n * 2 ^ k := by
  have hnonneg := magProduct_nonneg h ar e m
  have hle := magProduct_le h ar he hm
  have hcases := snapToOne_cases ar (ar.round (magProduct ar d e m))
  rw [← mag_eq_snap] at hcases
  cases ar with
  | exact =>
    refine rne64_canonical_of_le ?_ ?_ <;> rcases hcases with hmag | hmag <;> rw [hmag]
    · exact zero_le_one
    · exact hnonneg
    · norm_num
    · exact hle.trans (by norm_num)
  | binary64 =>
    rcases hcases with hmag | hmag
    · rw [hmag]
      exact canonical_one
    · rw [hmag]
      exact rne64_canonical_of_le hnonneg (hle.trans (by norm_num))

/-! ### The word -/

theorem decodeValue_eq (ar : Arith) (d : Desc) (x : Code) :
    decodeValue ar d x =
      b64 (outputMagnitude ar (mag ar d (exponentField d (x &&& codeMask d))
        (mantissaField d (x &&& codeMask d)))) (signField d (x &&& codeMask d)) := rfl

/-- DEC answers a finite word with the code's sign and magnitude (R101, R104). -/
theorem decodeValue_spec {d : Desc} (h : Desc.Legal d) (ar : Arith) (x : Code) :
    isNaN (decodeValue ar d x) = false ∧ isInf (decodeValue ar d x) = false ∧
      f64Sign (decodeValue ar d x) = signField d (x &&& codeMask d) ∧
      absVal (decodeValue ar d x) =
        outputMagnitude ar (mag ar d (exponentField d (x &&& codeMask d))
          (mantissaField d (x &&& codeMask d))) := by
  obtain ⟨n, k, hcanon, he⟩ := outputMagnitude_canonical h ar
    (exponentField_le d (x &&& codeMask d)) (mantissaField_le d (x &&& codeMask d))
  rw [decodeValue_eq, he]
  obtain ⟨hsign, hexp, -, -⟩ := b64_fields hcanon (signField d (x &&& codeMask d))
  obtain ⟨hnan, hinf⟩ := not_nan_inf_of_exp_lt hexp
  exact ⟨hnan, hinf, hsign, absVal_b64 hcanon _⟩

theorem ofBool_true_append (e : BitVec 11) (t : BitVec 52) :
    BitVec.ofBool true ++ e ++ t = (BitVec.ofBool false ++ e ++ t) ||| signBit64 := by
  have hfields : signBit64 = BitVec.ofBool true ++ 0#11 ++ 0#52 := by decide
  rw [hfields, BitVec.or_append, BitVec.or_append, BitVec.or_zero, BitVec.or_zero]
  rfl

/-- The two words of a magnitude differ in bit 63 alone (R10). -/
theorem b64_true_eq (q : ℚ) : b64 q true = b64 q false ||| signBit64 := by
  unfold b64
  simp only
  split
  · decide
  · split <;> exact ofBool_true_append _ _

end Sys2Proof.Machine
end

section
/-! SUPPORT. Under EXACT an inner value near that of a code, by far less than half a mantissa unit,
encodes to the code (41_scalar_codec.md rule R106). -/

namespace Sys2Proof.Machine

/-! ### The bucket of a code's inner value -/

/-- A scaled boundary stays below the next power by at least a sixth of a unit (R96). -/
theorem boundary_mul_basePow_le {d : Desc} (h : Desc.Legal d) (j : Nat) :
    boundary d * basePow d j ≤ (1 - mantissaUnit d / 6) * basePow d (j + 1) := by
  have hb := base_le_three h
  obtain ⟨hu, -⟩ := mantissaUnit_mem_Icc h
  rw [boundary_eq_unit h, basePow_succ h, ← mul_assoc]
  refine mul_le_mul_of_nonneg_right ?_ (h.basePow_pos j).le
  nlinarith

/-- The inner value is within a 64th of a mantissa unit of a code's. -/
def NearCode (d : Desc) (e m : Nat) (inner : ℚ) : Prop :=
  |inner - exactInner d e m| ≤ mantissaUnit d / 64 * basePow d e

theorem exponentIndex_of_nearCode {d : Desc} (h : Desc.Legal d) {e m : Nat} {inner : ℚ}
    (he : e ≤ topIndex d) (hm : m ≤ mantissaMask d) (hnear : NearCode d e m inner) :
    exponentIndex .exact d inner = e := by
  obtain ⟨hlo, hhi⟩ := abs_le.mp hnear
  have hu := (mantissaUnit_mem_Icc h).1
  have hupos : 0 < mantissaUnit d * basePow d e := mul_pos (by linarith) (h.basePow_pos e)
  refine exponentIndex_eq he (fun hpos => ?_) (fun j hj _ => ?_)
  · obtain ⟨k, rfl⟩ := Nat.exists_eq_add_one.mpr hpos
    have hbound := boundary_mul_basePow_le h k
    have hinner := basePow_le_exactInner h (k + 1) m
    rw [Nat.add_sub_cancel, scale_exact]
    change boundary d * basePow d k ≤ inner
    linarith
  · have hpow : basePow d e ≤ basePow d (j - 1) := basePow_mono h (by omega)
    have hbpos : 0 ≤ boundary d := by
      rw [boundary_eq_unit h]
      linarith [h.two_le_base, (mantissaUnit_mem_Icc h).2]
    have hsig := mul_le_mul_of_nonneg_left (exactSig_le h hm) (h.basePow_pos e).le
    have hscaled := mul_le_mul_of_nonneg_left hpow hbpos
    rw [← exactInner, ← mantissaUnit] at hsig
    rw [scale_exact]
    change inner < boundary d * basePow d (j - 1)
    rw [boundary_eq_unit h] at hscaled ⊢
    linarith

theorem mantissaOf_of_nearCode {d : Desc} (h : Desc.Legal d) {e m : Nat} {inner : ℚ}
    (hm : m ≤ mantissaMask d) (hnear : NearCode d e m inner) :
    mantissaOf .exact d inner e = m := by
  have hpow := h.basePow_pos e
  have hstep := stepScale_pos h
  have hdiff : scaledSignificand .exact d inner e - m =
      (inner - exactInner d e m) / basePow d e * stepScale d := by
    rw [← scaledSignificand_exactInner h e m, scaledSignificand_exact, scaledSignificand_exact]
    ring
  have hrha : rha (scaledSignificand .exact d inner e) = m := by
    refine rha_eq_of_abs_sub_lt ?_
    rw [Int.cast_natCast, hdiff, abs_mul, abs_div, abs_of_pos hpow, abs_of_pos hstep]
    calc |inner - exactInner d e m| / basePow d e * stepScale d
        ≤ mantissaUnit d / 64 * stepScale d :=
          mul_le_mul_of_nonneg_right ((div_le_iff₀ hpow).mpr hnear) hstep.le
      _ = mantissaUnit d * stepScale d / 64 := by ring
      _ < 1 / 2 := by rw [mantissaUnit_mul h]; norm_num
  rw [mantissaOf_eq_min, hrha]
  omega

theorem nearCode_self {d : Desc} (h : Desc.Legal d) (e m : Nat) :
    NearCode d e m (exactInner d e m) := by
  have hu := (mantissaUnit_mem_Icc h).1
  rw [NearCode, sub_self, abs_zero]
  exact mul_nonneg (by linarith) (h.basePow_pos e).le

/-- Only the largest code has inner values near it that are no smaller than its own. -/
theorem nearCode_saturated {d : Desc} (h : Desc.Legal d) {e m : Nat} {inner : ℚ}
    (he : e ≤ topIndex d) (hm : m ≤ mantissaMask d) (hnear : NearCode d e m inner)
    (hle : exactInner d (topIndex d) (mantissaMask d) ≤ inner) :
    e = topIndex d ∧ m = mantissaMask d := by
  have hself := nearCode_self h (topIndex d) (mantissaMask d)
  have hexp := exponentIndex_mono .exact d hle
  rw [exponentIndex_of_nearCode h le_rfl le_rfl hself, exponentIndex_of_nearCode h he hm hnear]
    at hexp
  obtain rfl : e = topIndex d := le_antisymm he hexp
  have hmant := mantissaOf_mono h .exact (topIndex d) hle
  simp only [mantissaOf_of_nearCode h le_rfl hself, mantissaOf_of_nearCode h hm hnear] at hmant
  exact ⟨rfl, le_antisymm hm hmant⟩

/-! ### The rounding of a decoded magnitude -/

theorem two_zpow_le_basePow {d : Desc} (h : Desc.Legal d) (i : Nat) :
    (2 : ℚ) ^ (-256 : ℤ) ≤ basePow d i := by
  have h1 := one_le_two.trans h.two_le_base
  obtain ⟨-, -, hbase, -, hlo, -, -⟩ := h
  calc (2 : ℚ) ^ (-256 : ℤ) ≤ (d.base.toNat : ℚ) ^ (-128 : ℤ) := by
        rcases hbase with hb | hb <;> rw [hb] <;> norm_num
    _ ≤ basePow d i := zpow_le_zpow_right₀ h1 (by omega)

/-- Every code but that of 0 has an inner value at least one mantissa unit of `a` above `a`. -/
theorem add_unit_le_exactInner {d : Desc} (h : Desc.Legal d) {e m : Nat}
    (hne : ¬(e = 0 ∧ m = 0)) :
    (1 + mantissaUnit d) * basePow d 0 ≤ exactInner d e m := by
  have hpow := h.basePow_pos 0
  have hb := h.two_le_base
  have hu := (mantissaUnit_mem_Icc h).2
  rcases Nat.eq_zero_or_pos e with rfl | he
  · have hsig : exactSig d 1 ≤ exactSig d m := exactSig_mono d (by omega)
    have hunit : exactSig d 1 = 1 + mantissaUnit d := by
      rw [exactSig, mantissaUnit, Nat.cast_one]
    rw [exactInner, mul_comm, ← hunit]
    exact mul_le_mul_of_nonneg_left hsig hpow.le
  · calc (1 + mantissaUnit d) * basePow d 0 ≤ d.base.toNat * basePow d 0 :=
          mul_le_mul_of_nonneg_right (by linarith) hpow.le
      _ = basePow d 1 := (basePow_succ h 0).symm
      _ ≤ basePow d e := basePow_mono h he
      _ ≤ exactInner d e m := basePow_le_exactInner h e m

theorem mag_exact_zero {d : Desc} (h : Desc.Legal d) : mag .exact d 0 0 = 0 := by
  rw [mag_exact h 0 (Nat.zero_le _), exactInner, exactSig]
  simp

/-- The other magnitudes are well above the subnormals (R11). -/
theorem leastNormal_le_mag_exact {d : Desc} (h : Desc.Legal d) {e m : Nat}
    (hm : m ≤ mantissaMask d) (hne : ¬(e = 0 ∧ m = 0)) : leastNormal ≤ mag .exact d e m := by
  have hinner := add_unit_le_exactInner h hne
  have hu := (mantissaUnit_mem_Icc h).1
  have hpow := h.basePow_pos 0
  have hpos : 0 < 1 - basePow d 0 := by linarith [h.basePow_zero_le_half]
  calc leastNormal ≤ 2 ^ (-16 + -256 : ℤ) := zpow_le_zpow_right₀ one_le_two (by omega)
    _ = 1 / 2 ^ 16 * 2 ^ (-256 : ℤ) := by
        rw [zpow_add₀ two_ne_zero]
        norm_num
    _ ≤ mantissaUnit d * basePow d 0 :=
        mul_le_mul hu (two_zpow_le_basePow h 0) (by positivity) (by linarith)
    _ ≤ exactInner d e m - basePow d 0 := by linarith
    _ ≤ mag .exact d e m := by
        rw [mag_exact h e hm]
        exact le_div_self (by nlinarith) hpos (by linarith)

theorem abs_rne64_mag_sub_le {d : Desc} (h : Desc.Legal d) {e m : Nat}
    (hm : m ≤ mantissaMask d) :
    |rne64 (mag .exact d e m) - mag .exact d e m| ≤ mag .exact d e m / 2 ^ 53 := by
  by_cases hne : e = 0 ∧ m = 0
  · obtain ⟨rfl, rfl⟩ := hne
    simp [mag_exact_zero h, rne64]
  · exact abs_rne64_sub_le (leastNormal_le_mag_exact h hm hne)

/-- The rounding of DEC moves the inner value by far less than a mantissa unit. -/
theorem nearCode_rne64_mag {d : Desc} (h : Desc.Legal d) {e m : Nat} (hm : m ≤ mantissaMask d) :
    NearCode d e m (innerOf .exact d (rne64 (mag .exact d e m))) := by
  have hpow := h.basePow_pos e
  have hpow0 := h.basePow_pos 0
  have hpos : 0 < 1 - basePow d 0 := by linarith [h.basePow_zero_le_half]
  have hu := (mantissaUnit_mem_Icc h).1
  have hb := base_le_three h
  have hsig : exactInner d e m ≤ 3 * basePow d e := by
    rw [exactInner, mul_comm]
    have hle := exactSig_le h hm
    rw [← mantissaUnit] at hle
    exact mul_le_mul_of_nonneg_right (by linarith) hpow.le
  have hdiff : innerOf .exact d (rne64 (mag .exact d e m)) - exactInner d e m =
      (rne64 (mag .exact d e m) - mag .exact d e m) * (1 - basePow d 0) := by
    rw [← innerOf_mag_exact h e hm, innerOf_exact, innerOf_exact]
    ring
  have hmag : mag .exact d e m * (1 - basePow d 0) = exactInner d e m - basePow d 0 := by
    rw [mag_exact h e hm, div_mul_cancel₀ _ hpos.ne']
  have hunit : (3 : ℚ) / 2 ^ 53 ≤ mantissaUnit d / 64 := by linarith
  rw [NearCode, hdiff, abs_mul, abs_of_pos hpos]
  calc |rne64 (mag .exact d e m) - mag .exact d e m| * (1 - basePow d 0)
      ≤ mag .exact d e m / 2 ^ 53 * (1 - basePow d 0) :=
        mul_le_mul_of_nonneg_right (abs_rne64_mag_sub_le h hm) hpos.le
    _ = (exactInner d e m - basePow d 0) / 2 ^ 53 := by rw [← hmag]; ring
    _ ≤ 3 / 2 ^ 53 * basePow d e := by linarith
    _ ≤ mantissaUnit d / 64 * basePow d e := mul_le_mul_of_nonneg_right hunit hpow.le

/-- ENC of a decoded magnitude packs its own exponent index and mantissa. -/
theorem magnitudeCode_of_absVal {d : Desc} (h : Desc.Legal d) {e m : Nat} (he : e ≤ topIndex d)
    (hm : m ≤ mantissaMask d) {w : Word64} (hinf : isInf w = false)
    (habs : absVal w = rne64 (mag .exact d e m)) :
    magnitudeCode .exact d w = packFields d e m := by
  have hnear := nearCode_rne64_mag h (e := e) hm
  rw [← habs] at hnear
  rcases le_or_gt (maxValue .exact d) (absVal w) with hsat | hlt
  · have hinner := innerOf_mono h .exact hsat
    rw [maxValue, innerOf_mag_exact h _ le_rfl] at hinner
    obtain ⟨rfl, rfl⟩ := nearCode_saturated h he hm hnear hinner
    exact magnitudeCode_of_saturated (.inr hsat)
  · rw [magnitudeCode_of_lt hinf hlt, encodeMagnitude, exponentIndex_of_nearCode h he hm hnear,
      mantissaOf_of_nearCode h hm hnear]

/-! ### ENC of the decoded word -/

/-- The sign bit of a code makes DEC's word negative, unless the code is the -0 code. -/
theorem neg_decodeValue_exact {d : Desc} (h : Desc.Legal d) {x : Code}
    (hne : d.sg = true → x &&& codeMask d ≠ signMask d) :
    neg (decodeValue .exact d x) = signField d (x &&& codeMask d) := by
  obtain ⟨hnan, hinf, hsign, habs⟩ := decodeValue_spec h .exact x
  rw [neg_of_finite hnan hinf, val, hsign]
  cases hbit : signField d (x &&& codeMask d) with
  | false => simpa using absVal_nonneg (decodeValue .exact d x)
  | true =>
    have hsg := ((signField_iff h x).mp hbit).1
    have hm := mantissaField_le d (x &&& codeMask d)
    have hfields : ¬(exponentField d (x &&& codeMask d) = 0 ∧
        mantissaField d (x &&& codeMask d) = 0) := by
      rintro ⟨he, hm⟩
      refine hne hsg (BitVec.eq_of_toNat_eq ?_)
      rw [masked_toNat_eq h, hbit, he, hm, signMask_toNat h, hsg]
      simp
    have hmag := leastNormal_le_mag_exact h hm hfields
    have hround := le_round .binary64 hmag le_rfl
    have hl := leastNormal_pos
    change _ ≤ outputMagnitude .exact _ at hround
    rw [← habs] at hround
    simp only [if_true, decide_eq_true_eq]
    linarith

theorem encodeValue_decodeValue_exact {d : Desc} (h : Desc.Legal d) {x : Code}
    (hne : d.sg = true → x &&& codeMask d ≠ signMask d) :
    encodeValue .exact d (decodeValue .exact d x) = x &&& codeMask d := by
  obtain ⟨hnan, hinf, -, habs⟩ := decodeValue_spec h .exact x
  have hneg := neg_decodeValue_exact h hne
  have he := exponentField_le d (x &&& codeMask d)
  have hm := mantissaField_le d (x &&& codeMask d)
  have htop := topIndex_add_one d
  have hmask := mantissaMask_add_one d
  have hsign : d.sg = true ∨ neg (decodeValue .exact d x) = false := by
    rw [hneg]
    cases hbit : signField d (x &&& codeMask d) with
    | false => exact .inr rfl
    | true => exact .inl ((signField_iff h x).mp hbit).1
  apply BitVec.eq_of_toNat_eq
  rw [encodeValue_toNat h .exact hnan hsign, hneg, magnitudeCode_of_absVal h he hm hinf habs,
    packFields_toNat h (by omega) (by omega), ← masked_toNat_eq h]

end Sys2Proof.Machine
end

section
/-! PROOF. The statements about DEC (41_scalar_codec.md rules R101 to R106). -/

namespace Sys2Proof.Machine

theorem answers_dec {s : State} (hvalid : s.arch.cfgValid = true) (x : Code) :
    s.Answers (.dec x) (decodeValue s.arith s.arch.desc x) :=
  whenConfigured_of_valid hvalid fun ar d => decodeValue ar d x

/-- A word depends on the container through the masked code alone (R102). -/
theorem decodeValue_congr (ar : Arith) {d : Desc} {x x' : Code}
    (h : x &&& codeMask d = x' &&& codeMask d) : decodeValue ar d x = decodeValue ar d x' := by
  rw [decodeValue_eq, decodeValue_eq, h]

/-- Settles O34: the only result DEC can give is that of the masked code. -/
theorem decIgnoresHighBits : Obligations.DecIgnoresHighBits := by
  intro s x x' hmask
  change execDec x s = execDec x' s
  rw [execDec, execDec, whenConfigured_eq, whenConfigured_eq, configuredResponse,
    configuredResponse, decodeValue_congr s.arith hmask]

/-- Settles O33: every decoded magnitude is representable, and its word has the code's sign. -/
theorem decReadsFields : Obligations.DecReadsFields := by
  rintro s x ⟨hvalid, hlegal⟩
  obtain ⟨hnan, hinf, hsign, habs⟩ := decodeValue_spec hlegal s.arith x
  refine ⟨_, _, _, answers_dec hvalid x, rfl, rfl, hnan, hinf, ?_, ?_⟩
  · rw [hsign, signField_iff hlegal]
  · rw [habs, exponentField_eq, mantissaField_eq, codeMask_and_toNat hlegal]
    rfl

/-- Settles O35: the set sign bit leaves the fields, and so the magnitude, as they are. -/
theorem decSignSymmetry : Obligations.DecSignSymmetry := by
  rintro s x ⟨hvalid, hlegal⟩ hclear hsg
  have hans := answers_dec hvalid (x ||| signMask s.arch.desc)
  obtain ⟨hexp, hmant⟩ := fields_of_setSign hlegal hsg hclear
  rw [decodeValue_eq, hexp, hmant, signField_of_setSign hlegal hsg hclear, b64_true_eq,
    ← signField_of_clear (d := s.arch.desc) hclear, ← decodeValue_eq] at hans
  exact ⟨_, answers_dec hvalid x, hans⟩

/-- Settles O36: the output rounding of DEC keeps the value in the cell of its code, and a code
other than the -0 code has a word of its own sign. -/
theorem exactEncInvertsDec : Obligations.ExactEncInvertsDec := by
  rintro s x ⟨hvalid, hlegal⟩ harith hne
  refine ⟨_, answers_dec hvalid x, ?_⟩
  have hans := answers_enc hvalid (decodeValue s.arith s.arch.desc x)
  rwa [harith, encodeValue_decodeValue_exact hlegal hne, ← harith] at hans

end Sys2Proof.Machine
end

section
/-! SUPPORT. Under both ARITH values the decoded magnitude keeps the order of the two fields of a
code, taken as one number (41_scalar_codec.md rules R100 and R101, 42_order_transform.md rule
R125). -/

namespace Sys2Proof.Machine

/-! ### From one exponent index to the next -/

/-- The computed significand stays a mantissa unit short of the base, but for two roundings. -/
theorem roundedSig_le {d : Desc} (h : Desc.Legal d) (ar : Arith) {m : Nat}
    (hm : m ≤ mantissaMask d) :
    roundedSig ar d m ≤
      (1 + 1 / 2 ^ 53) * ((1 + 1 / 2 ^ 53) * (d.base.toNat - mantissaUnit d)) := by
  have hl := leastNormal_le
  obtain ⟨hlow, -⟩ := h.maxFraction_mem_Icc
  have hmax : 1 + (mantissaMask d : ℚ) / stepScale d = d.base.toNat - mantissaUnit d :=
    exactSig_mantissaMask h
  have hfraction : ar.div (mantissaMask d) (stepScale d) ≤
      (1 + 1 / 2 ^ 53) * (mantissaMask d / stepScale d) := round_le ar (by linarith) le_rfl
  exact (roundedSig_mono ar d hm).trans (round_le ar (by linarith) (by linarith))

/-- No mantissa reaches the next scale entry: a mantissa unit is far wider than the roundings. -/
theorem roundedSig_mul_scale_le {d : Desc} (h : Desc.Legal d) (ar : Arith) {e m : Nat} (he : e < 15)
    (hm : m ≤ mantissaMask d) : roundedSig ar d m * scale ar d e ≤ scale ar d (e + 1) := by
  have hpow := h.basePow_pos e
  have hb := base_le_three h
  obtain ⟨hu, -⟩ := mantissaUnit_mem_Icc h
  have hsig := roundedSig_le h ar hm
  have hsigpos := zero_le_one.trans (one_le_roundedSig ar d m)
  obtain ⟨-, hscale⟩ := scale_mem_Icc_ulp h ar he.le
  obtain ⟨hnext, -⟩ := scale_mem_Icc_ulp h ar (Nat.succ_le_of_lt he)
  calc roundedSig ar d m * scale ar d e
      ≤ (1 + 1 / 2 ^ 53) * ((1 + 1 / 2 ^ 53) * (d.base.toNat - mantissaUnit d)) *
          ((1 + 1 / 2 ^ 53) * basePow d e) :=
        mul_le_mul hsig hscale (scale_pos h ar e).le (hsigpos.trans hsig)
    _ = (1 + 1 / 2 ^ 53) ^ 3 * (d.base.toNat - mantissaUnit d) * basePow d e := by ring
    _ ≤ (1 - 1 / 2 ^ 53) * d.base.toNat * basePow d e :=
        mul_le_mul_of_nonneg_right (by linarith) hpow.le
    _ = (1 - 1 / 2 ^ 53) * basePow d (e + 1) := by rw [basePow_succ h, mul_assoc]
    _ ≤ scale ar d (e + 1) := hnext

/-- The scaled significand keeps the order of exponent index and mantissa as one number. -/
theorem roundedSig_mul_scale_mono {d : Desc} (h : Desc.Legal d) (ar : Arith) {e e' m m' : Nat}
    (he' : e' ≤ topIndex d) (hm : m ≤ mantissaMask d) (hm' : m' ≤ mantissaMask d)
    (hle : e * 2 ^ mantissaBits d + m ≤ e' * 2 ^ mantissaBits d + m') :
    roundedSig ar d m * scale ar d e ≤ roundedSig ar d m' * scale ar d e' := by
  have htop := h.topIndex_le
  have hmask := mantissaMask_add_one d
  rcases lt_trichotomy e e' with hlt | rfl | hgt
  · calc roundedSig ar d m * scale ar d e ≤ scale ar d (e + 1) :=
          roundedSig_mul_scale_le h ar (by omega) hm
      _ ≤ scale ar d e' := scale_mono h ar hlt
      _ ≤ roundedSig ar d m' * scale ar d e' :=
          le_mul_of_one_le_left (scale_pos h ar e').le (one_le_roundedSig ar d m')
  · exact mul_le_mul_of_nonneg_right (roundedSig_mono ar d (Nat.le_of_add_le_add_left hle))
      (scale_pos h ar e).le
  · have hstep := Nat.mul_le_mul_right (2 ^ mantissaBits d) (Nat.succ_le_of_lt hgt)
    rw [Nat.succ_mul] at hstep
    omega

/-! ### The snap and the output rounding -/

/-- The snap keeps the order: what lies between 1 and a value within the bound is within it too. -/
theorem snapToOne_mono (ar : Arith) : Monotone (snapToOne ar) := by
  intro r r' hle
  have hsub : ar.sub r 1 ≤ ar.sub r' 1 := round_mono ar (sub_le_sub_right hle 1)
  have hneg : ∀ q : ℚ, q ≤ 1 → ar.sub q 1 ≤ 0 := fun q hq =>
    (round_mono ar (sub_nonpos.mpr hq)).trans_eq (round_zero ar)
  have hpos : ∀ q : ℚ, 1 ≤ q → 0 ≤ ar.sub q 1 := fun q hq => round_nonneg ar (sub_nonneg.mpr hq)
  unfold snapToOne
  split_ifs with hsnap hsnap' hsnap'
  · exact le_rfl
  · refine le_of_not_gt fun hlt => ?_
    rw [abs_of_nonpos (hneg r (hle.trans hlt.le))] at hsnap
    rw [abs_of_nonpos (hneg r' hlt.le)] at hsnap'
    linarith
  · refine le_of_not_gt fun hlt => ?_
    rw [abs_of_nonneg (hpos r hlt.le)] at hsnap
    rw [abs_of_nonneg (hpos r' (hlt.le.trans hle))] at hsnap'
    linarith
  · exact hle

theorem outputMagnitude_mono (ar : Arith) : Monotone (outputMagnitude ar) := by
  cases ar with
  | exact => exact rne64_mono
  | binary64 => exact monotone_id

theorem mag_mono {d : Desc} (h : Desc.Legal d) (ar : Arith) {e e' m m' : Nat}
    (he' : e' ≤ topIndex d) (hm : m ≤ mantissaMask d) (hm' : m' ≤ mantissaMask d)
    (hle : e * 2 ^ mantissaBits d + m ≤ e' * 2 ^ mantissaBits d + m') :
    mag ar d e m ≤ mag ar d e' m' := by
  have hinner : magInner ar d e m ≤ magInner ar d e' m' :=
    round_mono ar
      (sub_le_sub_right (round_mono ar (roundedSig_mul_scale_mono h ar he' hm hm' hle)) _)
  rw [mag_eq_snap, mag_eq_snap]
  exact snapToOne_mono ar
    (round_mono ar (mul_le_mul_of_nonneg_right hinner (affineC_pos h ar).le))

/-! ### The magnitude part of a code -/

/-- The exponent index and the mantissa of a container as one number: the code without its sign. -/
def magnitudeBits (d : Desc) (x : Code) : Nat :=
  exponentField d (x &&& codeMask d) * 2 ^ mantissaBits d + mantissaField d (x &&& codeMask d)

/-- The magnitude DEC answers for a container (R101, R104). -/
def decodedMagnitude (ar : Arith) (d : Desc) (x : Code) : ℚ :=
  outputMagnitude ar (mag ar d (exponentField d (x &&& codeMask d))
    (mantissaField d (x &&& codeMask d)))

theorem magnitudeBits_lt (d : Desc) (x : Code) :
    magnitudeBits d x < 2 ^ (d.xb.toNat + mantissaBits d) :=
  (fields_eq_mod d (x &&& codeMask d)).trans_lt (Nat.mod_lt _ (Nat.two_pow_pos _))

/-- In a signed format the magnitude part stands below bit N-1 (R26, R97). -/
theorem magnitudeBits_lt_of_signed {d : Desc} (h : Desc.Legal d) (hsg : d.sg = true) (x : Code) :
    magnitudeBits d x < 2 ^ (d.tb.toNat - 1) := by
  have hfields := h.fields_add
  rw [hsg, Bool.toNat_true] at hfields
  rw [show d.tb.toNat - 1 = d.xb.toNat + mantissaBits d by omega]
  exact magnitudeBits_lt d x

theorem decodedMagnitude_mono {d : Desc} (h : Desc.Legal d) (ar : Arith) {x y : Code}
    (hle : magnitudeBits d x ≤ magnitudeBits d y) :
    decodedMagnitude ar d x ≤ decodedMagnitude ar d y :=
  outputMagnitude_mono ar
    (mag_mono h ar (exponentField_le d _) (mantissaField_le d _) (mantissaField_le d _) hle)

/-- What DEC answers is the magnitude with the sign of the code (R104). -/
theorem val_decodeValue {d : Desc} (h : Desc.Legal d) (ar : Arith) (x : Code) :
    val (decodeValue ar d x) =
      if signField d (x &&& codeMask d) then -decodedMagnitude ar d x
      else decodedMagnitude ar d x := by
  obtain ⟨-, -, hsign, habs⟩ := decodeValue_spec h ar x
  rw [val, hsign, habs, decodedMagnitude]

theorem decodedMagnitude_nonneg {d : Desc} (h : Desc.Legal d) (ar : Arith) (x : Code) :
    0 ≤ decodedMagnitude ar d x := by
  obtain ⟨-, -, -, habs⟩ := decodeValue_spec h ar x
  rw [decodedMagnitude, ← habs]
  exact absVal_nonneg _

end Sys2Proof.Machine
end

section
/-! SUPPORT. The transform in numbers: comparable values from the sign and the magnitude part of a
code, the code of a comparable value, and the bits of the sign mask (42_order_transform.md rules
R120, R121, R124 and R125). -/

namespace Sys2Proof.Machine

/-! ### Comparable values -/

/-- A comparable value counts the magnitude part up from the middle, or down from below it for a set
sign bit; in an unsigned format it is the magnitude part (R125). -/
theorem toCmp_eq_magnitudeBits {d : Desc} (h : Desc.Legal d) (x : Code) :
    (toCmp d x).toNat =
      if d.sg then
        (if signField d (x &&& codeMask d) then 2 ^ (d.tb.toNat - 1) - 1 - magnitudeBits d x
        else 2 ^ (d.tb.toNat - 1) + magnitudeBits d x)
      else magnitudeBits d x := by
  have hmasked := masked_toNat_eq h x
  have hdouble := Nat.two_pow_pred_add_two_pow_pred (w := d.tb.toNat) h.1
  rw [codeMask_and_toNat h, ← magnitudeBits] at hmasked
  rw [toCmp_toNat h]
  simp only [signField_iff h] at hmasked ⊢
  cases hsg : d.sg with
  | false => simpa [hsg] using hmasked
  | true =>
    simp only [hsg, true_and, if_true] at hmasked ⊢
    split_ifs at hmasked ⊢ <;> omega

theorem toCmp_lt {d : Desc} (h : Desc.Legal d) (x : Code) :
    (toCmp d x).toNat < 2 ^ d.tb.toNat := by
  have hlt := Nat.mod_lt x.toNat (Nat.two_pow_pos d.tb.toNat)
  have hdouble := Nat.two_pow_pred_add_two_pow_pred (w := d.tb.toNat) h.1
  rw [toCmp_toNat h]
  split_ifs <;> omega

/-- Only the masked code counts (R120). -/
theorem toCmp_masked {d : Desc} (h : Desc.Legal d) (x : Code) :
    toCmp d (x &&& codeMask d) = toCmp d x := by
  apply BitVec.eq_of_toNat_eq
  rw [toCmp_toNat h, toCmp_toNat h, codeMask_and_toNat h, Nat.mod_mod]

/-! ### The code of a comparable value -/

/-- The sign mask is one bit, so that a container has it set or has nothing of it. -/
theorem and_signMask_eq_signMask_iff {d : Desc} (h : Desc.Legal d) (hsg : d.sg = true) (u : Code) :
    u &&& signMask d = signMask d ↔ 2 ^ (d.tb.toNat - 1) ≤ u.toNat % 2 ^ d.tb.toNat := by
  have hpos := Nat.two_pow_pos (d.tb.toNat - 1)
  rw [← not_lt, ← and_signMask_eq_zero_iff h hsg, ← BitVec.toNat_inj, ← BitVec.toNat_inj,
    BitVec.toNat_and, signMask_toNat h, if_pos hsg, Nat.and_two_pow]
  cases u.toNat.testBit (d.tb.toNat - 1) with
  | false => simp [hpos.ne]
  | true => simp

/-- Clearing the set sign bit of a container takes its weight off. -/
theorem and_not_signMask_and_codeMask_toNat {d : Desc} (h : Desc.Legal d) (hsg : d.sg = true)
    {u : Code} (hset : u &&& signMask d = signMask d) :
    (u &&& ~~~signMask d &&& codeMask d).toNat =
      u.toNat % 2 ^ d.tb.toNat - 2 ^ (d.tb.toNat - 1) := by
  have hclear : u &&& ~~~signMask d &&& signMask d = 0#16 := by
    rw [BitVec.and_assoc, BitVec.and_comm (~~~signMask d), BitVec.and_not_self]
    exact BitVec.and_zero
  have hback : signMask d ||| (u &&& ~~~signMask d) = u := by
    conv_lhs => rw [← hset]
    ext k hk
    simp only [BitVec.getElem_or, BitVec.getElem_and, BitVec.getElem_not]
    cases u[k] <;> cases (signMask d)[k] <;> rfl
  have hadd := signMask_or_and_codeMask_toNat h hsg ((and_signMask_eq_zero_iff h hsg _).mp hclear)
  rw [hback, codeMask_and_toNat h] at hadd
  rw [codeMask_and_toNat h, hadd, Nat.add_sub_cancel_left]

/-- The numeric layout of the inverse (R121). -/
theorem fromCmp_toNat {d : Desc} (h : Desc.Legal d) (u : Code) :
    (fromCmp d u).toNat =
      if d.sg then
        (if 2 ^ (d.tb.toNat - 1) ≤ u.toNat % 2 ^ d.tb.toNat then
          u.toNat % 2 ^ d.tb.toNat - 2 ^ (d.tb.toNat - 1)
        else 2 ^ d.tb.toNat - 1 - u.toNat % 2 ^ d.tb.toNat)
      else u.toNat % 2 ^ d.tb.toNat := by
  unfold fromCmp
  cases hsg : d.sg with
  | false =>
    have hmask : signMask d = 0#16 := by simp [signMask, hsg]
    have hkeep : u &&& ~~~0#16 = u := BitVec.and_allOnes
    rw [hmask, if_pos BitVec.and_zero, hkeep, codeMask_and_toNat h]
    rfl
  | true =>
    simp only [← and_signMask_eq_signMask_iff h hsg, if_true]
    split
    · next hset => exact and_not_signMask_and_codeMask_toNat h hsg hset
    · exact not_and_codeMask_toNat h u

theorem fromCmp_lt {d : Desc} (h : Desc.Legal d) (u : Code) :
    (fromCmp d u).toNat < 2 ^ d.tb.toNat := by
  have hlt := Nat.mod_lt u.toNat (Nat.two_pow_pos d.tb.toNat)
  have hdouble := Nat.two_pow_pred_add_two_pow_pred (w := d.tb.toNat) h.1
  rw [fromCmp_toNat h]
  split_ifs <;> omega

theorem fromCmp_toCmp {d : Desc} (h : Desc.Legal d) (x : Code) :
    fromCmp d (toCmp d x) = x &&& codeMask d := by
  have hlt := Nat.mod_lt x.toNat (Nat.two_pow_pos d.tb.toNat)
  have hdouble := Nat.two_pow_pred_add_two_pow_pred (w := d.tb.toNat) h.1
  apply BitVec.eq_of_toNat_eq
  rw [fromCmp_toNat h, Nat.mod_eq_of_lt (toCmp_lt h x), toCmp_toNat h, codeMask_and_toNat h]
  split_ifs <;> omega

/-- Comparable values tell masked codes apart (R125). -/
theorem masked_eq_of_toCmp_eq {d : Desc} (h : Desc.Legal d) {x y : Code}
    (heq : (toCmp d x).toNat = (toCmp d y).toNat) : x &&& codeMask d = y &&& codeMask d := by
  rw [← fromCmp_toCmp h x, BitVec.eq_of_toNat_eq heq, fromCmp_toCmp h]

theorem toCmp_fromCmp {d : Desc} (h : Desc.Legal d) (u : Code) :
    toCmp d (fromCmp d u) = u &&& codeMask d := by
  have hlt := Nat.mod_lt u.toNat (Nat.two_pow_pos d.tb.toNat)
  have hdouble := Nat.two_pow_pred_add_two_pow_pred (w := d.tb.toNat) h.1
  apply BitVec.eq_of_toNat_eq
  rw [toCmp_toNat h, Nat.mod_eq_of_lt (fromCmp_lt h u), fromCmp_toNat h, codeMask_and_toNat h]
  split_ifs <;> omega

/-! ### The bits of the sign mask -/

/-- The sign mask is bit N-1 of a signed format, and no bit of an unsigned one (R26). -/
theorem signMask_getLsbD {d : Desc} (h : Desc.Legal d) (k : Nat) :
    (signMask d).getLsbD k = (d.sg && decide (k + 1 = d.tb.toNat)) := by
  have hlow := h.1
  rw [← BitVec.testBit_toNat, signMask_toNat h]
  cases d.sg with
  | false => simp
  | true =>
    rw [if_pos rfl, Nat.testBit_two_pow, Bool.true_and]
    exact decide_eq_decide.mpr (by omega)

theorem absCode_getLsbD {d : Desc} (h : Desc.Legal d) (x : Code) (k : Nat) :
    (absCode d x).getLsbD k =
      (x.getLsbD k && !(d.sg && decide (k + 1 = d.tb.toNat))) := by
  rw [absCode, BitVec.getLsbD_and, BitVec.getLsbD_not, signMask_getLsbD h]
  rcases Nat.lt_or_ge k 16 with hk | hk
  · rw [decide_eq_true hk, Bool.true_and]
  · rw [BitVec.getLsbD_of_ge x k hk, Bool.false_and, Bool.false_and]

end Sys2Proof.Machine
end

section
/-! SUPPORT. The order of comparable values and that of decoded values, and the two zeros
(42_order_transform.md rule R125). -/

namespace Sys2Proof.Machine

/-! ### The order of decoded values -/

/-- The order of comparable values is kept by DEC under both ARITH values (R125). -/
theorem val_decodeValue_mono {d : Desc} (h : Desc.Legal d) (ar : Arith) {x y : Code}
    (hle : (toCmp d x).toNat ≤ (toCmp d y).toNat) :
    val (decodeValue ar d x) ≤ val (decodeValue ar d y) := by
  have hx := decodedMagnitude_nonneg h ar x
  have hy := decodedMagnitude_nonneg h ar y
  rw [toCmp_eq_magnitudeBits h, toCmp_eq_magnitudeBits h] at hle
  rw [val_decodeValue h, val_decodeValue h]
  cases hsg : d.sg with
  | false =>
    have hclear : ∀ z : Code, ¬signField d (z &&& codeMask d) = true := by
      simp [signField_iff h, hsg]
    rw [hsg] at hle
    rw [if_neg (hclear x), if_neg (hclear y)]
    exact decodedMagnitude_mono h ar hle
  | true =>
    have hbits := magnitudeBits_lt_of_signed h hsg x
    have hbits' := magnitudeBits_lt_of_signed h hsg y
    rw [hsg, if_pos rfl, if_pos rfl] at hle
    split_ifs at hle ⊢ with hneg hneg' hneg'
    · exact neg_le_neg (decodedMagnitude_mono h ar (by omega))
    · linarith
    · omega
    · exact decodedMagnitude_mono h ar (Nat.le_of_add_le_add_left hle)

theorem realLe_decodeValue {d : Desc} (h : Desc.Legal d) (ar : Arith) {x y : Code}
    (hle : val (decodeValue ar d x) ≤ val (decodeValue ar d y)) :
    realLe (decodeValue ar d x) (decodeValue ar d y) := by
  obtain ⟨-, hinf, -, -⟩ := decodeValue_spec h ar x
  obtain ⟨-, hinf', -, -⟩ := decodeValue_spec h ar y
  exact .inr (.inr ⟨hinf, hinf', hle⟩)

/-- ENC gives back a code other than the -0 code and keeps the order, so that DEC loses no strict
order between two of them (R125). -/
theorem val_decodeValue_exact_strictMono {d : Desc} (h : Desc.Legal d) {x y : Code}
    (hx : d.sg = true → x &&& codeMask d ≠ signMask d)
    (hy : d.sg = true → y &&& codeMask d ≠ signMask d)
    (hlt : (toCmp d x).toNat < (toCmp d y).toNat) :
    val (decodeValue .exact d x) < val (decodeValue .exact d y) := by
  by_contra hge
  obtain ⟨hnan, -, -, -⟩ := decodeValue_spec h .exact x
  obtain ⟨hnan', -, -, -⟩ := decodeValue_spec h .exact y
  have hle := encIsMonotone .exact d _ _ h hnan' hnan
    (realLe_decodeValue h .exact (not_lt.mp hge))
  rw [encodeValue_decodeValue_exact h hx, encodeValue_decodeValue_exact h hy, toCmp_masked h,
    toCmp_masked h] at hle
  omega

/-! ### The two zeros -/

theorem signMask_and_codeMask {d : Desc} (h : Desc.Legal d) :
    signMask d &&& codeMask d = signMask d := by
  have hlow := h.1
  apply BitVec.eq_of_toNat_eq
  rw [codeMask_and_toNat h, Nat.mod_eq_of_lt]
  rw [signMask_toNat h]
  split
  · exact Nat.pow_lt_pow_right one_lt_two (by omega)
  · exact Nat.two_pow_pos _

theorem signField_signMask {d : Desc} (h : Desc.Legal d) (hsg : d.sg = true) :
    signField d (signMask d &&& codeMask d) = true := by
  rw [signField_iff h, ← codeMask_and_toNat h, signMask_and_codeMask h, signMask_toNat h,
    if_pos hsg]
  exact ⟨hsg, le_rfl⟩

/-- The -0 code is the sign bit alone (R104). -/
theorem magnitudeBits_signMask {d : Desc} (h : Desc.Legal d) (hsg : d.sg = true) :
    magnitudeBits d (signMask d) = 0 := by
  have hmasked := masked_toNat_eq h (signMask d)
  rw [signField_signMask h hsg, signMask_and_codeMask h, signMask_toNat h, if_pos hsg, if_pos rfl]
    at hmasked
  rw [magnitudeBits, signMask_and_codeMask h]
  omega

theorem magnitudeBits_zero (d : Desc) : magnitudeBits d 0#16 = 0 := by
  simp [magnitudeBits, exponentField, mantissaField]

theorem decodedMagnitude_exact_of_zero {d : Desc} (h : Desc.Legal d) {x : Code}
    (hzero : magnitudeBits d x = 0) : decodedMagnitude .exact d x = 0 := by
  obtain ⟨hexp, hmant⟩ := Nat.add_eq_zero_iff.mp hzero
  have hexp := (Nat.mul_eq_zero.mp hexp).resolve_right (Nat.two_pow_pos _).ne'
  rw [decodedMagnitude, hexp, hmant, mag_exact_zero h, outputMagnitude, rne64, if_pos rfl]

theorem decodeValue_exact_of_zero {d : Desc} (h : Desc.Legal d) {x : Code}
    (hzero : magnitudeBits d x = 0) :
    decodeValue .exact d x = b64 0 (signField d (x &&& codeMask d)) := by
  rw [decodeValue_eq, ← decodedMagnitude, decodedMagnitude_exact_of_zero h hzero]

theorem val_decodeValue_exact_of_zero {d : Desc} (h : Desc.Legal d) {x : Code}
    (hzero : magnitudeBits d x = 0) : val (decodeValue .exact d x) = 0 := by
  rw [val_decodeValue h, decodedMagnitude_exact_of_zero h hzero, neg_zero, ite_self]

theorem decodeValue_exact_signMask {d : Desc} (h : Desc.Legal d) (hsg : d.sg = true) :
    decodeValue .exact d (signMask d) = 0x8000000000000000#64 := by
  rw [decodeValue_exact_of_zero h (magnitudeBits_signMask h hsg), signField_signMask h hsg]
  rfl

theorem decodeValue_exact_zero {d : Desc} (h : Desc.Legal d) :
    decodeValue .exact d 0#16 = 0#64 := by
  rw [decodeValue_exact_of_zero h (magnitudeBits_zero d), signField_of_clear BitVec.zero_and]
  rfl

theorem toCmp_signMask_add_one {d : Desc} (h : Desc.Legal d) (hsg : d.sg = true) :
    (toCmp d (signMask d)).toNat + 1 = (toCmp d 0#16).toNat := by
  rw [toCmp_eq_magnitudeBits h, toCmp_eq_magnitudeBits h, signField_signMask h hsg,
    signField_of_clear BitVec.zero_and, magnitudeBits_signMask h hsg, magnitudeBits_zero]
  simp only [hsg, if_true, Bool.false_eq_true, if_false]
  exact Nat.sub_add_cancel (Nat.two_pow_pos _)

/-- Every container of the -0 code comes right below +0, with the same value (R125). -/
theorem minusZero_adjacent {d : Desc} (h : Desc.Legal d) (hsg : d.sg = true) {x : Code}
    (hx : x &&& codeMask d = signMask d) :
    (toCmp d x).toNat + 1 = (toCmp d 0#16).toNat ∧
      val (decodeValue .exact d x) = val (decodeValue .exact d 0#16) := by
  constructor
  · rw [← toCmp_masked h, hx, toCmp_signMask_add_one h hsg]
  · rw [decodeValue_congr .exact (hx.trans (signMask_and_codeMask h).symm),
      val_decodeValue_exact_of_zero h (magnitudeBits_signMask h hsg),
      val_decodeValue_exact_of_zero h (magnitudeBits_zero d)]

theorem val_decodeValue_exact_lt {d : Desc} (h : Desc.Legal d) {x y : Code}
    (hlt : (toCmp d x).toNat < (toCmp d y).toNat)
    (hne : ¬(d.sg = true ∧ x &&& codeMask d = signMask d ∧ y &&& codeMask d = 0#16)) :
    val (decodeValue .exact d x) < val (decodeValue .exact d y) := by
  have hplus : d.sg = true → 0#16 &&& codeMask d ≠ signMask d := by
    intro hsg hmask
    have hcmp := (minusZero_adjacent h hsg hmask).1
    omega
  by_cases hx : d.sg = true ∧ x &&& codeMask d = signMask d
  · obtain ⟨hsg, hx⟩ := hx
    obtain ⟨hcmp, hval⟩ := minusZero_adjacent h hsg hx
    have hy : (toCmp d y).toNat ≠ (toCmp d 0#16).toNat := fun heq =>
      hne ⟨hsg, hx, (masked_eq_of_toCmp_eq h heq).trans BitVec.zero_and⟩
    rw [hval]
    refine val_decodeValue_exact_strictMono h hplus (fun _ hy' => ?_) (by omega)
    have hcmp' := (minusZero_adjacent h hsg hy').1
    omega
  · by_cases hy : d.sg = true ∧ y &&& codeMask d = signMask d
    · obtain ⟨hcmp, hval⟩ := minusZero_adjacent h hy.1 hy.2
      rw [hval]
      exact val_decodeValue_exact_strictMono h (not_and.mp hx) hplus (by omega)
    · exact val_decodeValue_exact_strictMono h (not_and.mp hx) (not_and.mp hy) hlt

end Sys2Proof.Machine
end

section
/-! PROOF. The statements about the order-preserving transform (42_order_transform.md rules R120 to
R125). -/

namespace Sys2Proof.Machine

/-- Settles O37: DEC never turns the order of comparable values round; under EXACT it keeps a strict
order too, with +0 in the place of a -0 code. -/
theorem comparableOrderIsRealOrder : Obligations.ComparableOrderIsRealOrder := by
  refine ⟨fun ar d x y hlegal hlt => ?_, fun d x y hlegal => val_decodeValue_exact_lt hlegal,
    fun d hlegal hsg => ⟨decodeValue_exact_signMask hlegal hsg, decodeValue_exact_zero hlegal, ?_,
      toCmp_signMask_add_one hlegal hsg⟩⟩
  · exact not_le.mp fun hle => hlt.not_ge (val_decodeValue_mono hlegal ar hle)
  · exact (minusZero_adjacent hlegal hsg (signMask_and_codeMask hlegal)).2

theorem answers_tocmp {s : State} (hvalid : s.arch.cfgValid = true) (x : Code) :
    s.Answers (.tocmp x) (zext64 (toCmp s.arch.desc x)) :=
  whenConfigured_of_valid hvalid fun _ d => zext64 (toCmp d x)

theorem answers_frcmp {s : State} (hvalid : s.arch.cfgValid = true) (u : Code) :
    s.Answers (.frcmp u) (zext64 (fromCmp s.arch.desc u)) :=
  whenConfigured_of_valid hvalid fun _ d => zext64 (fromCmp d u)

theorem answers_abs {s : State} (hvalid : s.arch.cfgValid = true) (x : Code) :
    s.Answers (.abs x) (zext64 (absCode s.arch.desc x)) :=
  whenConfigured_of_valid hvalid fun _ d => zext64 (absCode d x)

/-- A result on the bus carries its container in the low 16 bits (R59). -/
theorem zext64_setWidth (c : Code) : (zext64 c).setWidth 16 = c :=
  (BitVec.setWidth_setWidth_of_le c (by omega)).trans (BitVec.setWidth_eq c)

/-- Settles O38: the layout of comparable values. -/
theorem tocmpLayout : Obligations.TocmpLayout := by
  intro s x
  refine ⟨fun hinvalid => whenConfigured_of_invalid hinvalid fun _ d => zext64 (toCmp d x), ?_⟩
  rintro ⟨hvalid, hlegal⟩
  refine ⟨_, _, _, answers_tocmp hvalid x, rfl, rfl, ?_⟩
  rw [zext64_toNat, toCmp_toNat hlegal]

/-- Settles O39: the layout of the inverse. -/
theorem frcmpLayout : Obligations.FrcmpLayout := by
  rintro s u ⟨hvalid, hlegal⟩
  refine ⟨_, _, _, answers_frcmp hvalid u, rfl, rfl, ?_⟩
  rw [zext64_toNat, fromCmp_toNat hlegal]

/-- Settles O40: the two layouts undo each other, half by half. -/
theorem transformIsBijection : Obligations.TransformIsBijection := by
  rintro s x ⟨hvalid, hlegal⟩
  have hback := answers_frcmp hvalid (toCmp s.arch.desc x)
  have hforth := answers_tocmp hvalid (fromCmp s.arch.desc x)
  rw [fromCmp_toCmp hlegal] at hback
  rw [toCmp_fromCmp hlegal] at hforth
  exact ⟨⟨_, answers_tocmp hvalid x, by rwa [zext64_setWidth]⟩,
    ⟨_, answers_frcmp hvalid x, by rwa [zext64_setWidth]⟩⟩

/-- Settles O41: the sign mask is bit N-1 of a signed format and nothing else. -/
theorem absClearsSignBitOnly : Obligations.AbsClearsSignBitOnly := by
  intro s x
  refine ⟨fun hinvalid => whenConfigured_of_invalid hinvalid fun _ d => zext64 (absCode d x), ?_⟩
  rintro ⟨hvalid, hlegal⟩
  refine ⟨_, answers_abs hvalid x, fun k => ?_⟩
  rw [← BitVec.testBit_toNat, zext64_toNat, BitVec.testBit_toNat, absCode_getLsbD hlegal]

end Sys2Proof.Machine
end

section
/-! SUPPORT. The delta codec in numbers: the comparable value DDEC moves to (43_delta_codec.md rules
R131 to R133), and the delta of DENC with the word it makes (R130). -/

namespace Sys2Proof.Machine

/-! ### Saturation -/

theorem maxCmp_eq {d : Desc} (h : Desc.Legal d) : maxCmp d = 2 ^ d.tb.toNat - 1 := by
  rw [maxCmp, codeMask_toNat h, Nat.cast_sub Nat.one_le_two_pow]
  simp

theorem clamp_mono {v v' : Int} (hle : v ≤ v') (lo hi : Int) : clamp v lo hi ≤ clamp v' lo hi :=
  min_le_min_right hi (max_le_max_right lo hle)

theorem clamp_eq_self {v lo hi : Int} (hlo : lo ≤ v) (hhi : v ≤ hi) : clamp v lo hi = v := by
  rw [clamp, max_eq_left hlo, min_eq_left hhi]

theorem toCmp_le_maxCmp {d : Desc} (h : Desc.Legal d) (x : Code) :
    ((toCmp d x).toNat : Int) ≤ maxCmp d := by
  have hlt := toCmp_lt h x
  rw [maxCmp, codeMask_toNat h]
  omega

theorem clamp_maxCmp_bounds (d : Desc) (v : Int) :
    0 ≤ clamp v 0 (maxCmp d) ∧ clamp v 0 (maxCmp d) ≤ maxCmp d :=
  ⟨le_min (le_max_right v 0) (Int.natCast_nonneg _), min_le_right _ _⟩

/-- The saturated target fits its container and the width, so nothing wraps (R133). -/
theorem ofInt_clamp_masked {d : Desc} (h : Desc.Legal d) (v : Int) :
    ((BitVec.ofInt 16 (clamp v 0 (maxCmp d)) &&& codeMask d).toNat : Int) =
      clamp v 0 (maxCmp d) := by
  obtain ⟨hnonneg, hle⟩ := clamp_maxCmp_bounds d v
  have hN := two_pow_tb_le h
  obtain ⟨n, hn⟩ := Int.eq_ofNat_of_zero_le hnonneg
  have hlt : n < 2 ^ d.tb.toNat := by
    rw [hn, maxCmp_eq h] at hle
    zify
    omega
  rw [hn, codeMask_and_toNat h, BitVec.ofInt_natCast, BitVec.toNat_ofNat,
    Nat.mod_eq_of_lt (by omega : n < 2 ^ 16), Nat.mod_eq_of_lt hlt]

/-! ### DDEC's result -/

/-- Delta 0 is the identity path (R132). -/
@[simp] theorem applyDelta_zero (d : Desc) (last : Code) : applyDelta d last 0 = last := if_pos rfl

/-- The one law of DDEC: its comparable value is that of `last` moved by the delta and clamped, at
delta 0 too (R131 to R133). -/
theorem toCmp_applyDelta {d : Desc} (h : Desc.Legal d) (last : Code) (delta : Int) :
    ((toCmp d (applyDelta d last delta)).toNat : Int) =
      clamp ((toCmp d last).toNat + delta) 0 (maxCmp d) := by
  rcases eq_or_ne delta 0 with rfl | hne
  · rw [applyDelta_zero, add_zero, clamp_eq_self (Int.natCast_nonneg _) (toCmp_le_maxCmp h last)]
  · rw [applyDelta, if_neg hne, toCmp_fromCmp h, ofInt_clamp_masked h]

/-- With another delta the bits above the width are 0 (R131). -/
theorem applyDelta_lt {d : Desc} (h : Desc.Legal d) (last : Code) {delta : Int} (hne : delta ≠ 0) :
    (applyDelta d last delta).toNat < 2 ^ d.tb.toNat := by
  rw [applyDelta, if_neg hne]
  exact fromCmp_lt h _

theorem applyDelta_masked {d : Desc} (h : Desc.Legal d) (last : Code) {delta : Int}
    (hne : delta ≠ 0) : applyDelta d last delta &&& codeMask d = applyDelta d last delta := by
  apply BitVec.eq_of_toNat_eq
  rw [codeMask_and_toNat h, Nat.mod_eq_of_lt (applyDelta_lt h last hne)]

/-! ### DENC's delta -/

/-- Two comparable values are less than the width's range apart (R130). -/
theorem deltaOf_bounds {d : Desc} (h : Desc.Legal d) (last x : Code) :
    -maxCmp d ≤ deltaOf d last x ∧ deltaOf d last x ≤ maxCmp d := by
  have hlast := toCmp_le_maxCmp h last
  have hx := toCmp_le_maxCmp h x
  unfold deltaOf
  omega

theorem fitsSigned64_deltaOf (d : Desc) (last x : Code) :
    fitsSigned64 (deltaOf d last x) = true := by
  have hlast := (toCmp d last).isLt
  have hx := (toCmp d x).isLt
  rw [fitsSigned64_iff, deltaOf]
  omega

/-- No delta overflows its word, so that DDEC reads back what DENC answered (R130, R131). -/
theorem sint64_sext64_deltaOf (d : Desc) (last x : Code) :
    sint64 (sext64 (deltaOf d last x)) = deltaOf d last x :=
  sint64_sext64 (fitsSigned64_deltaOf d last x)

theorem sext64_deltaOf_eq_zero_iff (d : Desc) (last x : Code) :
    sext64 (deltaOf d last x) = 0#64 ↔ deltaOf d last x = 0 := by
  constructor
  · intro hword
    rw [← sint64_sext64_deltaOf, hword]
    rfl
  · intro hdelta
    rw [hdelta]
    rfl

/-- DDEC by the delta between two codes lands on the second, up to the bits above the width
(R135). -/
theorem applyDelta_deltaOf {d : Desc} (h : Desc.Legal d) (last x : Code) :
    applyDelta d last (deltaOf d last x) &&& codeMask d = x &&& codeMask d := by
  have hval := toCmp_applyDelta h last (deltaOf d last x)
  rw [deltaOf, add_sub_cancel, clamp_eq_self (Int.natCast_nonneg _) (toCmp_le_maxCmp h x)] at hval
  exact masked_eq_of_toCmp_eq h (Int.natCast_inj.mp hval)

end Sys2Proof.Machine
end

section
/-! PROOF. The statements about the delta codec (43_delta_codec.md rules R130 to R135). -/

namespace Sys2Proof.Machine

theorem answers_denc {s : State} (hvalid : s.arch.cfgValid = true) (last x : Code) :
    s.Answers (.denc last x) (sext64 (deltaOf s.arch.desc last x)) :=
  whenConfigured_of_valid hvalid fun _ d => sext64 (deltaOf d last x)

theorem answers_ddec {s : State} (hvalid : s.arch.cfgValid = true) (last : Code) (delta : Int) :
    s.Answers (.ddec last delta) (zext64 (applyDelta s.arch.desc last delta)) :=
  whenConfigured_of_valid hvalid fun _ d => zext64 (applyDelta d last delta)

/-- Settles O43: delta 0 takes the identity path, before any masking. -/
theorem ddecZeroReturnsLast : Obligations.DdecZeroReturnsLast := by
  intro s last hvalid
  have hans := answers_ddec hvalid last 0
  rwa [applyDelta_zero] at hans

/-- Settles O42: the delta fits its word, and both comparable values lie in `[0, code_mask]`. -/
theorem dencIsExactDifference : Obligations.DencIsExactDifference := by
  intro s last x
  refine ⟨fun hinvalid =>
    whenConfigured_of_invalid hinvalid fun _ d => sext64 (deltaOf d last x), ?_⟩
  rintro ⟨hvalid, hlegal⟩
  have hword : (sext64 (deltaOf s.arch.desc last x)).toInt = deltaOf s.arch.desc last x :=
    sint64_sext64_deltaOf s.arch.desc last x
  refine ⟨_, _, _, answers_denc hvalid last x, answers_tocmp hvalid last,
    answers_tocmp hvalid x, ?_⟩
  rw [hword, zext64_toNat, zext64_toNat, ← maxCmp_eq hlegal]
  exact ⟨rfl, deltaOf_bounds hlegal last x⟩

/-- Settles O44: the result is a masked code, and `toCmp_applyDelta` gives its comparable value. -/
theorem ddecSaturates : Obligations.DdecSaturates := by
  rintro s last delta ⟨hvalid, hlegal⟩ hne
  refine ⟨_, _, _, answers_ddec hvalid last delta, answers_tocmp hvalid last,
    answers_tocmp hvalid _, ?_, ?_⟩
  · rw [zext64_toNat]
    exact Nat.le_sub_one_of_lt (applyDelta_lt hlegal last hne)
  · rw [zext64_setWidth, zext64_toNat, zext64_toNat, toCmp_applyDelta hlegal, maxCmp_eq hlegal]
    rfl

/-- Settles O45: DDEC lands on `x` under the mask; with another delta than 0 its result is masked
already, and DEC reads the masked code alone. -/
theorem deltaRoundTrip : Obligations.DeltaRoundTrip := by
  rintro s last x ⟨hvalid, hlegal⟩
  have hmask := applyDelta_deltaOf hlegal last x
  refine ⟨_, _, decodeValue s.arith s.arch.desc x, answers_denc hvalid last x,
    answers_ddec hvalid last _, ?_⟩
  rw [sint64_sext64_deltaOf, ne_eq, sext64_deltaOf_eq_zero_iff, zext64_setWidth]
  refine ⟨fun hne => ?_, fun hzero => ?_, hmask, ?_, answers_dec hvalid x⟩
  · rw [← hmask, applyDelta_masked hlegal last hne]
  · rw [hzero, applyDelta_zero]
  · have hans := answers_dec hvalid (applyDelta s.arch.desc last (deltaOf s.arch.desc last x))
    rwa [decodeValue_congr s.arith hmask] at hans

/-- Settles O46: the clamp of `toCmp_applyDelta` is monotone, with delta 0 no exception. -/
theorem ddecIsMonotone : Obligations.DdecIsMonotone := by
  intro d last k k' hlegal hle
  zify
  rw [toCmp_applyDelta hlegal, toCmp_applyDelta hlegal]
  exact clamp_mono (by omega) 0 (maxCmp d)

end Sys2Proof.Machine
end

section
/-! SUPPORT. A CFG that fails, and what else ends in an error response: the checks of R71 in their order
(40_descriptor.md rules R71 and R73), the reserved opcodes and the commands without a descriptor
(60_exceptions.md rules R141 to R143). -/

namespace Sys2Proof.Machine

/-! ### The first failing check -/

/-- Check 1 comes before all others (R71). -/
theorem validate_eq_one {tb : Int} (htb : 16 < tb) (base xb mine sg : Int) :
    validate tb base xb mine sg = 1 := if_pos htb

/-- Check 2 is reached past check 1 (R71). -/
theorem validate_eq_two {tb base : Int} (htb : tb ≤ 16) (hbase : ¬(base = 2 ∨ base = 3))
    (xb mine sg : Int) : validate tb base xb mine sg = 2 := by
  rw [validate, if_neg htb.not_gt, if_pos hbase]

/-- Check 3 is reached past checks 1 and 2 (R71). -/
theorem validate_eq_three {tb base xb sg : Int} (htb : tb ≤ 16) (hbase : base = 2 ∨ base = 3)
    (hwidth : tb - xb - sg < 1) (mine : Int) : validate tb base xb mine sg = 3 := by
  rw [validate, if_neg htb.not_gt, if_neg (not_not_intro hbase), if_pos hwidth]

/-- Past checks 1 to 3, checks 4 and 5 remain (R71). -/
theorem validate_of_width {tb base xb sg : Int} (htb : tb ≤ 16) (hbase : base = 2 ∨ base = 3)
    (hwidth : 1 ≤ tb - xb - sg) (mine : Int) :
    validate tb base xb mine sg = if xb > 4 then 4 else if mine ≥ 0 then 5 else 0 := by
  rw [validate, if_neg htb.not_gt, if_neg (not_not_intro hbase), if_neg hwidth.not_gt]

/-! ### CFG by its two outcomes -/

/-- Operands that fit their fields are checked as they are (R70, R71). -/
theorem validateDesc_descOf {tb base xb : Nat} {mine : Int} {sg : Bool}
    (hwf : (Instr.cfg tb base xb mine sg).wellFormed = true) :
    validateDesc (descOf tb base xb mine sg) = validate tb base xb mine sg.toNat := by
  obtain ⟨etb, ebase, exb, emine⟩ := descOf_fields hwf
  rw [validateDesc, etb, ebase, exb, emine]
  rfl

/-- A CFG with a failing check clears the descriptor, and reports the cause twice (R71, R73). -/
theorem execCfg_of_failing {tb base xb cause : Nat} {mine : Int} {sg : Bool}
    (hcause : validateDesc (descOf tb base xb mine sg) = cause) (hne : cause ≠ 0) (s : State) :
    exec (.cfg tb base xb mine sg) s =
      .next ((s.withArch (failedArch cause)).push ⟨.cfgError, BitVec.ofNat 64 cause⟩) := by
  refine (execCfg_eq tb base xb mine sg s).trans ?_
  rw [hcause, if_neg hne]

/-- A CFG on the unit by itself writes a descriptor and answers OK, or clears it and answers
CFG_ERROR. -/
theorem unitStep_of_isCfg {i : Instr} (hcfg : i.isCfg = true) (ar : Arith) (x : Arch) :
    (∃ d, unitStep ar x i = (configuredArch d, ⟨.ok, 0#64⟩)) ∨
      ∃ cause, unitStep ar x i = (failedArch cause, ⟨.cfgError, BitVec.ofNat 64 cause⟩) := by
  cases i with
  | cfg tb base xb mine sg =>
    by_cases hvalid : validateDesc (descOf tb base xb mine sg) = 0
    · have hlegal := (validateDesc_eq_zero_iff _).mp hvalid
      exact .inl ⟨_, unitStep_eq_of_exec (execCfg_of_legal hlegal _)⟩
    · exact .inr ⟨_, unitStep_eq_of_exec (execCfg_of_failing rfl hvalid _)⟩
  | _ => cases hcfg

/-- RDCFG answers OK on the unit by itself (R75). -/
theorem unitStep_rdcfg (ar : Arith) (x : Arch) :
    unitStep ar x .rdcfg = (x, ⟨.ok, statusWord x⟩) := rfl

/-! ### Commands that answer an error whatever their operands -/

/-- A command with a reserved opcode answers ILLEGAL_OP, and does nothing else (R54, R141). -/
theorem exec_of_reserved_opcode {i : Instr} (h : i.opcode ∈ [0x0#4, 0xC#4, 0xD#4, 0xE#4, 0xF#4])
    (s : State) : exec i s = .next (s.push ⟨.illegalOp, 0#64⟩) := by
  cases i with
  | reserved0 | reservedC | reservedD | reservedE | reservedF => exact illegalOpcode_eq s
  | cfg | rdcfg | maxv | minv | enc | dec | abs | tocmp | frcmp | denc | ddec =>
    simp [Instr.opcode] at h

/-- Without a valid descriptor the nine commands answer NOT_CONFIGURED, and do nothing else
(R142). -/
theorem exec_of_needsDescriptor_of_invalid {i : Instr} (h : i.needsDescriptor = true) {s : State}
    (hinvalid : s.arch.cfgValid = false) :
    exec i s = .next (s.push ⟨.notConfigured, 0#64⟩) := by
  obtain ⟨f, hf⟩ := exec_of_needsDescriptor h
  exact (hf s).trans (whenConfigured_of_invalid hinvalid f)

end Sys2Proof.Machine
end

section
/-! PROOF. The statements about errors (60_exceptions.md rules R141 to R147). -/

namespace Sys2Proof.Machine

/-- Settles O21: the checks before the failing one pass, so its number is what the validation
gives. -/
theorem cfgReportsFirstFailingCheck : Obligations.CfgReportsFirstFailingCheck := by
  intro s tb base xb mine sg cause hwf hfirst
  have hcause : validate tb base xb mine sg.toNat = cause ∧ cause ≠ 0 := by
    rcases hfirst with ⟨rfl, htb⟩ | ⟨rfl, htb, hbase⟩ | ⟨rfl, htb, hbase, hwidth⟩ |
      ⟨rfl, htb, hbase, hwidth, hxb⟩ | ⟨rfl, htb, hbase, hwidth, hxb, hmine⟩
    · exact ⟨validate_eq_one (by omega) _ _ _ _, by decide⟩
    · exact ⟨validate_eq_two (by omega) (by omega) _ _ _, by decide⟩
    · exact ⟨validate_eq_three (by omega) (by omega) hwidth _, by decide⟩
    · rw [validate_of_width (by omega) (by omega) hwidth, if_pos (by omega)]
      exact ⟨rfl, by decide⟩
    · rw [validate_of_width (by omega) (by omega) hwidth, if_neg (by omega), if_pos hmine]
      exact ⟨rfl, by decide⟩
  obtain ⟨hvalidate, hne⟩ := hcause
  exact execCfg_of_failing ((validateDesc_descOf hwf).trans hvalidate) hne s

/-- Settles O4: a reset edge and an edge that accepts nothing have a next state, and so has every
command. -/
theorem stepNeverStops : Obligations.StepNeverStops := by
  intro s
  cases hrst : s.edge.rst with
  | true => exact ⟨_, step_of_rst hrst⟩
  | false =>
    cases hacc : s.accepts with
    | true => exact ⟨_, (step_of_accepts hrst hacc).trans (exec_eq_unitStep _ _)⟩
    | false => exact ⟨_, step_of_not_accepts hrst hacc⟩

/-- Settles O16: decoding keeps the opcode, and a command with a reserved opcode is a reserved
one. -/
theorem reservedOpcodesAnswerIllegal : Obligations.ReservedOpcodesAnswerIllegal := by
  refine ⟨fun s i hi => ?_, fun s c hc => ?_⟩
  · exact exec_of_reserved_opcode (List.mem_map_of_mem (f := Instr.opcode) hi) s
  · exact exec_of_reserved_opcode (decode_opcode c ▸ hc) s

/-- Settles O17: the commands listed are those that need a descriptor; a CFG on the unit by itself
answers OK or, with the descriptor cleared, CFG_ERROR. -/
theorem needsDescriptor : Obligations.NeedsDescriptor := by
  refine ⟨fun s i hinvalid hi => ?_, fun ar x i hi => ?_, rfl, fun ar x i hcfg hstatus => ?_⟩
  · refine exec_of_needsDescriptor_of_invalid ?_ hinvalid
    rcases hi with hi | ⟨w, rfl⟩ | ⟨x, rfl⟩ | ⟨x, rfl⟩ | ⟨x, rfl⟩ | ⟨u, rfl⟩ | ⟨l, x, rfl⟩ |
      ⟨l, k, rfl⟩
    · revert i
      decide
    all_goals rfl
  · rcases hi with hcfg | rfl
    · rcases unitStep_of_isCfg hcfg ar x with ⟨d, h⟩ | ⟨cause, h⟩ <;> rw [h] <;> nofun
    · rw [unitStep_rdcfg]
      nofun
  · rcases unitStep_of_isCfg hcfg ar x with ⟨d, h⟩ | ⟨cause, h⟩
    · rw [h] at hstatus
      cases hstatus
    · rw [h]
      rfl

end Sys2Proof.Machine
end

section
/-! PROOF. The statements about reset and about latency (70_reset_and_hazards.md rules R160 to R162 and
R167). -/

namespace Sys2Proof.Machine

/-! ### Reset -/

/-- During reset the port is not ready (R164, log entry 16). -/
theorem reqReady_of_rst {s : State} (hrst : s.edge.rst = true) : s.reqReady = false := by
  simp [State.reqReady, hrst]

theorem accepts_of_rst {s : State} (hrst : s.edge.rst = true) : s.accepts = false := by
  simp [State.accepts, hrst]

theorem transfers_of_rst {s : State} (hrst : s.edge.rst = true) : s.transfers = false := by
  simp [State.transfers, hrst]

/-- With nothing in flight there is room, so a command offered without reset is accepted (R162,
R164). -/
theorem accepts_of_outstanding_nil {s : State} (hempty : s.outstanding = [])
    (hrst : s.edge.rst = false) (hvalid : s.edge.reqValid = true) : s.accepts = true :=
  (accepts_iff hrst).mpr ⟨hvalid, by simp [hempty, State.depth]⟩

/-- Settles O6: the next state is that of `resetEdge`, which has nothing in flight. -/
theorem resetEdgeDiscardsEverything : Obligations.ResetEdgeDiscardsEverything := by
  intro s hrst
  exact ⟨accepts_of_rst hrst, transfers_of_rst hrst, reqReady_of_rst hrst, s.resetEdge,
    step_of_rst hrst, rfl, rfl, rfl, rfl, rfl, rfl, rfl, accepts_of_outstanding_nil rfl⟩

/-! ### Latency -/

/-- Every edge uses up the host's inputs of that edge, and no others. -/
theorem step_inputs {s t : State} (hstep : step s = .next t) : t.inputs = s.inputs.tail := by
  rcases step_cases hstep with ⟨-, rfl⟩ | ⟨-, -, hexec⟩ | ⟨-, -, rfl⟩
  · rfl
  · obtain ⟨x, r, hx, -⟩ := exec_cases (decode s.edge.req) s.settle
    obtain rfl : (s.settle.withArch x).push r = t := Host.Outcome.next.inj (hx.symm.trans hexec)
    rfl
  · rfl

/-- A run of one step more begins with that step. -/
theorem run_succ {M : Host.Core} {s t : M.State} (hstep : M.step s = .next t) (k : Nat) :
    M.run (k + 1) s = M.run k t := by
  simp [Host.Core.run, hstep]

/-- Past the end of the host's list `rst` is 0, so the coming edge is no reset edge unless the list
begins with one (log entry 2). -/
theorem edge_rst_of_take {s : State} {k : Nat}
    (hinputs : ∀ e ∈ s.inputs.take (k + 1), e.rst = false) : s.edge.rst = false := by
  cases hs : s.inputs with
  | nil => simp [State.edge, hs, EdgeIn.idle]
  | cons e es => simpa [State.edge, hs] using hinputs e (by simp [hs])

/-- Nothing is on offer while the oldest command in flight has edges to wait (R167). -/
theorem offered_of_waiting {s : State} {r : Response} {k : Nat} {ps : List Pending}
    (h : s.outstanding = ⟨r, k + 1⟩ :: ps) : s.offered = none := by
  simp [State.offered, h]

/-- An edge without reset takes one from the wait of the oldest command in flight; with nothing on
offer the host cannot take that command's place in the queue away (R167). -/
theorem step_outstanding_of_waiting {s t : State} {r : Response} {k : Nat} {ps : List Pending}
    (h : s.outstanding = ⟨r, k + 1⟩ :: ps) (hrst : s.edge.rst = false) (hstep : step s = .next t) :
    ∃ qs, t.outstanding = ⟨r, k⟩ :: qs := by
  obtain ⟨-, new, hnew⟩ := step_settle_append hrst hstep
  have hheld : s.transfers = false := by simp [transfers_eq hrst, offered_of_waiting h]
  exact ⟨tick ps ++ new, by simp [hnew, hheld, h, tick]⟩

/-- Settles O9, by induction on the edges still to wait: each edge leaves the same response the
oldest in flight, with one edge less to wait. -/
theorem oldestResponseComesDue : Obligations.OldestResponseComesDue := by
  intro k
  induction k with
  | zero => exact fun s r ps hs _ => ⟨s, rfl, offered_of_outstanding hs⟩
  | succ k ih =>
    intro s r ps hs hinputs
    obtain ⟨s', hstep⟩ := stepNeverStops s
    obtain ⟨qs, hqs⟩ := step_outstanding_of_waiting hs (edge_rst_of_take hinputs) hstep
    have hinputs' : ∀ e ∈ s'.inputs.take k, e.rst = false := by
      rw [step_inputs hstep, ← Nat.add_sub_cancel k 1, ← List.tail_take_eq_take_tail]
      exact fun e he => hinputs e (List.mem_of_mem_tail he)
    obtain ⟨t, hrun, hoffered⟩ := ih s' r qs hqs hinputs'
    exact ⟨t, (run_succ hstep k).trans hrun, hoffered⟩

end Sys2Proof.Machine
end
